-- ==== Sys2Proof/Word.lean ====
section
/-! DEFINITION. The widths of the values the engine computes with (spec/00_scope.md rules R6 to R9). -/

namespace Sys2Proof

/-- A 128-bit value: a key, a round key, a block, the state register (rules R6, R8).  Bit 0 is the least significant. -/
abbrev Word := BitVec 128

/-- A 4-bit lane of the substitution layer (rule R9). -/
abbrev Nibble := BitVec 4

/-- An 8-bit lane of the permutation layer, and one byte of a host's buffer (rules R9, R41). -/
abbrev Byte := BitVec 8

/-- A command word `cmd[129:0] = {cmd_op[1:0], cmd_data[127:0]}` (rule R62). -/
abbrev CmdWord := BitVec 130

/-- A response word `rsp[129:0] = {rsp_status[1:0], rsp_data[127:0]}` (rule R64). -/
abbrev RspWord := BitVec 130

/-- Eleven 128-bit values, a round key schedule (rules R6, R21). -/
abbrev Schedule := Vector Word 11

end Sys2Proof
end

