-- ==== Sys2Proof/Config.lean ====
section
/-! DEFINITION. What the engine does not decide: the values on its input ports (rule R60) and the open values of the host's
helpers.  The algorithm's and the interface's parameters are fixed by rules R6 and R7 and are no configuration. -/

namespace Sys2Proof

/-- The five input ports of rule R60 as sampled at one rising edge of `clk` (rule R29: inputs of a step, not state of the engine). -/
structure PortIn where
  /-- `rst`: synchronous reset, active high. -/
  rst : Bool
  /-- `cmd_valid`: the host presents a command. -/
  cmdValid : Bool
  /-- `cmd_op`: the opcode presented. -/
  cmdOp : BitVec 2
  /-- `cmd_data`: the operand presented. -/
  cmdData : BitVec 128
  /-- `rsp_ready`: the host takes the response. -/
  rspReady : Bool
  deriving DecidableEq, Repr, Inhabited

/-- FREE VALUE (log entry 2): what the host and the platform drive at the n-th edge, for an edge whose inputs the state does
not list.  Nothing is known of it, so a statement about such an edge holds whatever the host does. -/
opaque Config.freePorts : Nat → PortIn

/-- FREE VALUE (log entry 9): the n-th key that `generate_key` draws, any 16 bytes (rule R143). -/
opaque Config.generatedKey : Nat → Vector Byte 16

/-- FREE VALUE (log entry 10): what `hex_to_bytes` answers on a text that is not an even number of upper-case hex digits;
the spec states no behaviour there (rule R144, N11).  `none` stands for an error. -/
opaque Config.hexToBytesOther : List Char → Option (List Byte)

end Sys2Proof
end

