-- ==== Sys2Proof/Syntax.lean ====
section
/-! DEFINITION. The instructions of the engine: the four rows of spec/opcode_table.json (rule R63). -/

namespace Sys2Proof

/-- A command as it stands on the command channel.  Every operand is the 128-bit `data` field taken whole (rule R66). -/
inductive Instr where
  /-- `RSVD`, `op = 0b00`: the reserved opcode, accepted like any command, its data ignored (rules R67, R153). -/
  | rsvd (data : Word)
  /-- `LDKEY`, `op = 0b01`: load the 128-bit master key (rule R82). -/
  | ldkey (key : Word)
  /-- `ENC`, `op = 0b10`: encrypt one 128-bit block (rule R115). -/
  | enc (block : Word)
  /-- `DEC`, `op = 0b11`: decrypt one 128-bit block (rule R116). -/
  | dec (block : Word)
  deriving DecidableEq, Repr

end Sys2Proof
end

