-- ==== Sys2Proof/WellFormed.lean ====
section
/-! DEFINITION. What makes a command, a command word and a host's buffer well formed. -/

namespace Sys2Proof

/-- Every command is well formed: all four opcodes are listed (rule R67) and each of the 2^128 values of `data` is a legal key
and a legal block (rule R68). -/
def Instr.wf : Instr → Bool
  | .rsvd _ => true
  | .ldkey _ => true
  | .enc _ => true
  | .dec _ => true

/-- A number is a command word when it fits the 130 bits of format `CMD` (rules R62, R69). -/
def cmdWordFits (w : Nat) : Bool := decide (w < 2 ^ 130)

/-- A host's buffer can be a key when it has exactly 16 bytes (rules R88, R131). -/
def keyLengthOk (key : List Byte) : Bool := decide (key.length = 16)

/-- A host's buffer can be a block when it has exactly 16 bytes (rules R44, R132). -/
def blockLengthOk (buf : List Byte) : Bool := decide (buf.length = 16)

/-- A host's buffer can be a ciphertext when its length is a positive multiple of 16 (rule R135; 90_conflicts.md C1). -/
def ciphertextLengthOk (c : List Byte) : Bool := decide (c.length % 16 = 0 ∧ c.length ≠ 0)

end Sys2Proof
end

