-- ==== Sys2Proof/Decode.lean ====
section
/-! DEFINITION. The command format `CMD` (rules R62, R63, R69): decoding a command word, total on all 130-bit words, and the
encoder written from the same table. -/

namespace Sys2Proof

/-- Bits 129:128 of a command word, the opcode (rule R62). -/
def opField (w : CmdWord) : BitVec 2 := w.extractLsb' 128 2

/-- Bits 127:0 of a command word, the operand (rule R62). -/
def dataField (w : CmdWord) : Word := w.extractLsb' 0 128

/-- The command of an opcode and an operand (the opcode map of rule R63).  The four tests are the four values of `op`. -/
def decodeOp (op : BitVec 2) (data : Word) : Instr :=
  if op = 0b01#2 then .ldkey data
  else if op = 0b10#2 then .enc data
  else if op = 0b11#2 then .dec data
  else .rsvd data

/-- The command of a command word.  Rule R67: "A decoder of `cmd` is total". -/
def decodeCmd (w : CmdWord) : Instr := decodeOp (opField w) (dataField w)

/-- The word the command ports carry (rule R62: `{cmd_op[1:0], cmd_data[127:0]}`). -/
def portWord (p : PortIn) : CmdWord := p.cmdOp ++ p.cmdData

/-- Why a number is no command. -/
inductive DecodeError where
  /-- The number has a bit above bit 129, where the command word has none (rule R69). -/
  | widerThanCommandWord
  deriving DecidableEq, Repr

/-- The command that a number stands for, total on every number: rejected by name when it does not fit the 130 bits. -/
def decodeWord (w : Nat) : Except DecodeError Instr :=
  if cmdWordFits w then .ok (decodeCmd (BitVec.ofNat 130 w)) else .error .widerThanCommandWord

/-- The instruction read from a table row's word of `nbits` bits (spec/opcode_table.json numbers the 130 bits of `cmd`, bit 0
the least significant; rule R62); every bit above `nbits` is 0. -/
def decodeTableWord (nbits w : Nat) : Option Instr :=
  match decodeWord (w % 2 ^ nbits) with
  | .ok i => some i
  | .error _ => none

/-- The opcode of a command (rule R63). -/
def Instr.opcode : Instr → BitVec 2
  | .rsvd _ => 0b00#2
  | .ldkey _ => 0b01#2
  | .enc _ => 0b10#2
  | .dec _ => 0b11#2

/-- The operand of a command (rule R63). -/
def Instr.data : Instr → Word
  | .rsvd d => d
  | .ldkey d => d
  | .enc d => d
  | .dec d => d

/-- The command word of a command (rule R62). -/
def encode (i : Instr) : CmdWord := i.opcode ++ i.data

end Sys2Proof
end

