-- ==== Sys2Proof/Machine/State.lean ====
section
/-! DEFINITION. The state of the engine (rule R20), the inputs its coming edges sample, and the reasons a step can stop. -/

namespace Sys2Proof.Machine

/-- What the engine is doing (rule R24).  No binary code is assigned to the five values. -/
inductive Phase where
  /-- `IDLE`: no command in progress; a command can be accepted. -/
  | idle
  /-- `KEXP`: an `LDKEY` is expanding the schedule. -/
  | kexp
  /-- `ENCR`: an `ENC` is running its rounds. -/
  | encr
  /-- `DECR`: a `DEC` is running its rounds. -/
  | decr
  /-- `RESP`: a response is waiting to be taken. -/
  | resp
  deriving DecidableEq, Repr

/-- Why the model stops with a fault. -/
inductive Fault where
  /-- Raised by a micro-step of `KEXP`, `ENCR` or `DECR` whose `rnd` selects a round key that does not exist (`RK[i]` with i not
  in 0..10, rule R21).  Rule R25 says such a value of `rnd` never occurs, so no run from reset reaches it.  SAFE: the model
  stops where the spec gives no effect (log entry 5). -/
  | roundKeyIndexOutOfRange
  deriving DecidableEq, Repr

/-- Why the model has no meaning for an instruction. -/
inductive Refusal where
  /-- Raised by an arm of `exec` whose instruction has no meaning yet; no arm does.  SAFE. -/
  | notModelled (mnemonic : String)
  deriving DecidableEq, Repr

/-- The machine: the six items of rule R20, then two fields of the model's own that say what the input ports carry at the
coming edges (rule R29: inputs of a step; log entry 2). -/
structure State where
  /-- `RK[0..10]`, the round key schedule, 11 x 128 bits (rule R21). -/
  RK : Schedule
  /-- `S`, 128 bits: the block being processed, then the response data (rule R22). -/
  S : Word
  /-- `key_valid`, 1 bit: `RK[0..10]` holds a complete schedule (rule R23). -/
  keyValid : Bool
  /-- `phase` (rule R24). -/
  phase : Phase
  /-- `rnd`, 4 bits: the round index of the next micro-step (rule R25). -/
  rnd : BitVec 4
  /-- `rstat`, 2 bits: the status of the pending response (rule R26). -/
  rstat : BitVec 2
  /-- The model's own: the port values that the coming edges sample, the next edge's first. -/
  pins : List PortIn
  /-- The model's own: how many edges have passed; selects the free port values once `pins` is used up. -/
  edges : Nat
  deriving DecidableEq, Repr

/-- The machine right after a reset step (rule R33), before any input is known.  `pins` and `edges` are the model's own
(log entry 3). -/
def State.reset : State where
  RK := Vector.replicate 11 0#128
  S := 0#128
  keyValid := false
  phase := .idle
  rnd := 0#4
  rstat := 0#2
  pins := []
  edges := 0

end Sys2Proof.Machine
end

