-- ==== Sys2Proof/Machine/Flags.lean ====
section
/-! DEFINITION. Status codes (rule R65) and the output ports as functions of the state (rule R35).  The engine has no flag that
depends on data (rules R11, R20): its flags are `key_valid` and the handshake outputs. -/

namespace Sys2Proof.Machine

/-- `OK`: the command completed (rule R65). -/
abbrev statusOk : BitVec 2 := 0b00#2

/-- `ERR_NOKEY`: `ENC` or `DEC` accepted while `key_valid = 0` (rules R65, R152). -/
abbrev statusErrNoKey : BitVec 2 := 0b01#2

/-- `ERR_ILLOP`: the reserved opcode accepted (rules R65, R153). -/
abbrev statusErrIllOp : BitVec 2 := 0b10#2

/-- `cmd_ready = 1` iff `phase = IDLE` (rule R35). -/
def State.cmdReady (s : State) : Bool := decide (s.phase = .idle)

/-- `rsp_valid = 1` iff `phase = RESP` (rule R35). -/
def State.rspValid (s : State) : Bool := decide (s.phase = .resp)

/-- `rsp_status = rstat` when `phase = RESP`, else 0 (rule R35). -/
def State.rspStatus (s : State) : BitVec 2 := if s.phase = .resp then s.rstat else 0#2

/-- `rsp_data = S` when `phase = RESP`, else 0 (rule R35). -/
def State.rspData (s : State) : Word := if s.phase = .resp then s.S else 0#128

/-- The response word on the response channel (rule R64). -/
def State.rspWord (s : State) : RspWord := s.rspStatus ++ s.rspData

end Sys2Proof.Machine
end

