-- ==== Sys2Proof/Machine/Operands.lean ====
section
/-! DEFINITION. The operand forms: the 128-bit operand as nibbles and as bytes counted from the least significant end (rule R9),
as a host's 16-byte buffer (rules R41, R42), and the rotations (rule R10). -/

namespace Sys2Proof.Machine

/-- `nib(v, i) = v[4i+3 : 4i]`, i = 0..31 (rule R9). -/
def nib (v : Word) (i : Nat) : Nibble := v.extractLsb' (4 * i) 4

/-- `byte(v, p) = v[8p+7 : 8p]`, the byte at position p = 0..15 (rule R9). -/
def byteAt (v : Word) (p : Nat) : Byte := v.extractLsb' (8 * p) 8

/-- The value whose lane i, bits `[w*i + w-1 : w*i]`, is `f i` for i < n (the reassembly of rules R92, R101). -/
def packLanes {w : Nat} (f : Nat → BitVec w) : Nat → Word
  | 0 => 0#128
  | n + 1 => packLanes f n ||| ((f n).setWidth 128 <<< (w * n))

/-- `rotl128(v, n)`, 0 <= n < 128 (rule R10). -/
def rotl128 (v : Word) (n : Nat) : Word := (v <<< n) ||| (v >>> (128 - n))

/-- `rotl8(b, n)`, 0 <= n < 8 (rule R10). -/
def rotl8 (b : Byte) (n : Nat) : Byte := (b <<< n) ||| (b >>> (8 - n))

/-- `rotr8(b, n)`, 0 <= n < 8 (rule R10). -/
def rotr8 (b : Byte) (n : Nat) : Byte := (b >>> n) ||| (b <<< (8 - n))

/-- `BE128`: the big-endian value of a 16-byte buffer, its first byte in bits 127:120 (rule R41). -/
def be128 (b : List Byte) : Word := b.foldl (fun v x => (v <<< 8) ||| x.setWidth 128) 0#128

/-- `BYTES16(v)[j] = v[127 - 8j : 120 - 8j]` for j = 0..15 (rule R42). -/
def bytes16 (v : Word) : List Byte := (List.range 16).map fun j => v.extractLsb' (120 - 8 * j) 8

end Sys2Proof.Machine
end

