-- ==== Sys2Proof/Machine/Ops.lean ====
section
/-! DEFINITION. The named operations over the registers and the ports: the round key registers, the way into and out of the
response phase (for errors too: rules R124, R156, R122, R157), the reset step, and what an edge samples. -/

namespace Sys2Proof.Machine

/-- The number of rounds (rule R6). -/
abbrev nRounds : Nat := 10

/-- `RK[i]`; there is none for i > 10 (rule R21). -/
def State.readRK (s : State) (i : Nat) : Option Word := s.RK[i]?

/-- `RK[i] <- v` for i = 0..10 (rule R21). -/
def State.writeRK (s : State) (i : Nat) (v : Word) : State := { s with RK := s.RK.setIfInBounds i v }

/-- `respond(st, d)`: `S <- d; rstat <- st; rnd <- 0; phase <- RESP` (rule R124). -/
def respond (st : BitVec 2) (d : Word) (s : State) : State :=
  { s with S := d, rstat := st, rnd := 0#4, phase := .resp }

/-- Error entry, the whole effect of raising an error: `respond(st, 0)` (rules R151, R156).  There is no handler, vector, saved
register or mode. -/
def raiseError (st : BitVec 2) (s : State) : State := respond st 0#128 s

/-- The response take step, and the return from an error: `S <- 0; rstat <- 0; phase <- IDLE` (rules R122, R157). -/
def takeResponse (s : State) : State := { s with S := 0#128, rstat := 0#2, phase := .idle }

/-- The reset step: every piece of the engine's state takes its reset value (rules R33, R171).  What the coming edges sample is
the host's, not the engine's, and stays. -/
def resetStep (s : State) : State := { State.reset with pins := s.pins, edges := s.edges }

/-- The port values at the k-th coming edge, k = 0 the next one: listed in `pins`, else free (log entry 2). -/
def State.portsAt (s : State) (k : Nat) : PortIn :=
  match s.pins[k]? with
  | some p => p
  | none => Config.freePorts (s.edges + k)

/-- The port values that the next edge samples (rules R29, R60). -/
def State.ports (s : State) : PortIn := s.portsAt 0

/-- The edge has passed: the next edge's port values come first. -/
def State.afterEdge (s : State) : State := { s with pins := s.pins.tail, edges := s.edges + 1 }

/-- The edge has passed, if the machine goes on. -/
def passEdge : Host.Outcome State Fault Refusal → Host.Outcome State Fault Refusal
  | .next s => .next s.afterEdge
  | .fault r => .fault r
  | .refused r => .refused r

end Sys2Proof.Machine
end

