-- ==== Sys2Proof/Machine/KeySchedule.lean ====
section
/-! DEFINITION. The key scheduler (40_key_scheduler.md, rules R80 to R88): the schedule function and the micro-steps of `LDKEY`. -/

namespace Sys2Proof.Machine

/-- `KSTEP(prev, i) = rotl128(prev, 13) XOR (zext_128(i) << 120)` (rule R80). -/
def kstep (prev : Word) (i : Nat) : Word := rotl128 prev 13 ^^^ (BitVec.ofNat 128 i <<< 120)

/-- `rk[i]` of the schedule of key k: `rk[0] = k`, `rk[i] = KSTEP(rk[i-1], i)` (rule R81). -/
def roundKey (k : Word) : Nat → Word
  | 0 => k
  | i + 1 => kstep (roundKey k i) (i + 1)

/-- `EXPAND(k) = rk[0..10]` (rule R81). -/
def expand (k : Word) : Schedule :=
  #v[roundKey k 0, roundKey k 1, roundKey k 2, roundKey k 3, roundKey k 4, roundKey k 5, roundKey k 6, roundKey k 7,
    roundKey k 8, roundKey k 9, roundKey k 10]

/-- `LDKEY` accept: `RK[0] <- k; key_valid <- 0; S <- 0; rnd <- 1; phase <- KEXP` (rule R84). -/
def acceptLdkey (k : Word) (s : State) : State :=
  { s.writeRK 0 k with keyValid := false, S := 0#128, rnd := 1#4, phase := .kexp }

/-- One expansion step of `KEXP`: `RK[rnd] <- KSTEP(RK[rnd - 1], rnd)`, and with `rnd = 10` the schedule is complete and the
response is presented (rule R84).  Where `rnd` selects no pair of round keys (`rnd` not in 1..10, excluded by rule R25) the
model stops (log entry 5). -/
def expansionStep (s : State) : Host.Outcome State Fault Refusal :=
  match s.rnd.toNat with
  | 0 => .fault .roundKeyIndexOutOfRange
  | i + 1 =>
    match s.readRK i, s.readRK (i + 1) with
    | some prev, some _ =>
      let s' := s.writeRK (i + 1) (kstep prev (i + 1))
      if i + 1 = nRounds then .next { s' with keyValid := true, rnd := 0#4, rstat := statusOk, phase := .resp }
      else .next { s' with rnd := s.rnd + 1#4 }
    | _, _ => .fault .roundKeyIndexOutOfRange

end Sys2Proof.Machine
end

