-- ==== Sys2Proof/Machine/Permutation.lean ====
section
/-! DEFINITION. The byte permutation layer (42_permutation.md, rules R100 to R107): 16 lanes of 8 bits, each rotated in place; no
bit moves from one byte position to another (rule R107). -/

namespace Sys2Proof.Machine

/-- `PSHIFT(p) = (p * 3) mod 8`, p counted from the least significant byte (rule R100). -/
def pshift (p : Nat) : Nat := (p * 3) % 8

/-- `PERM(s)`: byte p of the result is `rotl8(byte(s, p), PSHIFT(p))`, p = 0..15 (rule R101). -/
def perm (s : Word) : Word := packLanes (fun p => rotl8 (byteAt s p) (pshift p)) 16

/-- `INVPERM(s)`: byte p of the result is `rotr8(byte(s, p), PSHIFT(p))`, p = 0..15 (rule R102). -/
def invPerm (s : Word) : Word := packLanes (fun p => rotr8 (byteAt s p) (pshift p)) 16

end Sys2Proof.Machine
end

