-- ==== Sys2Proof/Machine/Substitution.lean ====
section
/-! DEFINITION. The nibble substitution layer (41_substitution.md, rules R90 to R95): 32 lanes of 4 bits, all always substituted. -/

namespace Sys2Proof.Machine

/-- The table `SBOX`, entry 0 first (rule R90). -/
def SBOX : Vector Nibble 16 :=
  #v[0xC#4, 0x5#4, 0x6#4, 0xB#4, 0x9#4, 0x0#4, 0xA#4, 0xD#4, 0x3#4, 0xE#4, 0xF#4, 0x8#4, 0x4#4, 0x7#4, 0x1#4, 0x2#4]

/-- The table `INV_SBOX`, entry 0 first (rule R91). -/
def INV_SBOX : Vector Nibble 16 :=
  #v[0x5#4, 0xE#4, 0xF#4, 0x8#4, 0xC#4, 0x1#4, 0x2#4, 0xD#4, 0xB#4, 0x4#4, 0x6#4, 0x3#4, 0x0#4, 0x7#4, 0x9#4, 0xA#4]

/-- `SBOX[v]` (rules R12, R90). -/
def sbox (v : Nibble) : Nibble := SBOX[v.toNat]'v.isLt

/-- `INV_SBOX[v]` (rules R12, R91). -/
def invSbox (v : Nibble) : Nibble := INV_SBOX[v.toNat]'v.isLt

/-- `SUB(s)`: nibble i of the result is `SBOX[nib(s, i)]`, i = 0..31 (rule R92). -/
def sub (s : Word) : Word := packLanes (fun i => sbox (nib s i)) 32

/-- `INVSUB(s)`: nibble i of the result is `INV_SBOX[nib(s, i)]`, i = 0..31 (rule R93). -/
def invSub (s : Word) : Word := packLanes (fun i => invSbox (nib s i)) 32

end Sys2Proof.Machine
end

