-- ==== Sys2Proof/Machine/BlockCore.lean ====
section
/-! DEFINITION. The block cipher core (43_block_core.md, rules R110 to R121): the rounds, the block functions, and the micro-steps
of `ENC` and `DEC`. -/

namespace Sys2Proof.Machine

/-- `ARK(s, k) = s XOR k` (rule R110). -/
def ark (s k : Word) : Word := s ^^^ k

/-- `ERND(s, k) = ARK(PERM(SUB(s)), k)` (rule R111). -/
def ernd (s k : Word) : Word := ark (perm (sub s)) k

/-- `DRND(s, k) = INVSUB(INVPERM(ARK(s, k)))` (rule R112). -/
def drnd (s k : Word) : Word := invSub (invPerm (ark s k))

/-- The round indices 1..10, ascending (rule R113). -/
def roundsUp : List (Fin 11) := [1, 2, 3, 4, 5, 6, 7, 8, 9, 10]

/-- The round indices 10..1, descending (rule R114). -/
def roundsDown : List (Fin 11) := [10, 9, 8, 7, 6, 5, 4, 3, 2, 1]

/-- `ENCRYPT_BLOCK(rk, b)`: `s = ARK(b, rk[0])`, then `s = ERND(s, rk[r])` for r = 1..10 (rule R113). -/
def encryptBlock (rk : Schedule) (b : Word) : Word := roundsUp.foldl (fun s r => ernd s rk[r]) (ark b rk[0])

/-- `DECRYPT_BLOCK(rk, c)`: `s = DRND(s, rk[r])` for r = 10..1 from `s = c`, then `ARK(s, rk[0])` (rule R114). -/
def decryptBlock (rk : Schedule) (c : Word) : Word := ark (roundsDown.foldl (fun s r => drnd s rk[r]) c) rk[0]

/-- `ENC` accept: with no key `respond(ERR_NOKEY, 0)`, else `S <- b XOR RK[0]; rnd <- 1; phase <- ENCR` (rules R120, R152). -/
def acceptEnc (b : Word) (s : State) : State :=
  if s.keyValid then { s with S := ark b s.RK[0], rnd := 1#4, phase := .encr } else raiseError statusErrNoKey s

/-- `DEC` accept: with no key `respond(ERR_NOKEY, 0)`, else `S <- c; rnd <- 10; phase <- DECR` (rules R121, R152). -/
def acceptDec (c : Word) (s : State) : State :=
  if s.keyValid then { s with S := c, rnd := 10#4, phase := .decr } else raiseError statusErrNoKey s

/-- One round step of `ENCR`: `S <- ERND(S, RK[rnd])`, and with `rnd = 10` the response is presented (rule R120).  Where `RK[rnd]`
does not exist (excluded by rule R25) the model stops (log entry 5). -/
def encRoundStep (s : State) : Host.Outcome State Fault Refusal :=
  match s.readRK s.rnd.toNat with
  | some k =>
    if s.rnd.toNat = nRounds then
      .next { s with S := ernd s.S k, rnd := 0#4, rstat := statusOk, phase := .resp }
    else .next { s with S := ernd s.S k, rnd := s.rnd + 1#4 }
  | none => .fault .roundKeyIndexOutOfRange

/-- One round step of `DECR`: with `rnd >= 1`, `S <- DRND(S, RK[rnd]); rnd <- rnd - 1`; with `rnd = 0`, `S <- S XOR RK[0]` and the
response is presented (rule R121).  Where `RK[rnd]` does not exist (excluded by rule R25) the model stops (log entry 5). -/
def decRoundStep (s : State) : Host.Outcome State Fault Refusal :=
  match s.readRK s.rnd.toNat with
  | some k =>
    if s.rnd.toNat = 0 then .next { s with S := ark s.S k, rstat := statusOk, phase := .resp }
    else .next { s with S := drnd s.S k, rnd := s.rnd - 1#4 }
  | none => .fault .roundKeyIndexOutOfRange

end Sys2Proof.Machine
end

