-- ==== Sys2Proof/Machine/Sequencer.lean ====
section
/-! DEFINITION. The rows of the step machine that need no command (rule R126 rows 2 and 8 to 12), and what presenting a command does
at an edge with `rst = 0` (rules R61, R51). -/

namespace Sys2Proof.Machine

/-- One edge with `rst = 0` at which no command is accepted: rows 2 and 8 to 12 of rule R126. -/
def engineEdge (s : State) : Host.Outcome State Fault Refusal :=
  match s.phase with
  | .idle => .next s
  | .kexp => expansionStep s
  | .encr => encRoundStep s
  | .decr => decRoundStep s
  | .resp => if s.ports.rspReady then .next (takeResponse s) else .next s

/-- One edge with `rst = 0` at which a command is presented: in `IDLE` it is accepted; in any other phase `cmd_ready = 0`, the
command waits, and the engine takes the step of its phase (rules R61, R126; log entry 4). -/
def presentCommand (accept : State → State) (s : State) : Host.Outcome State Fault Refusal :=
  if s.cmdReady then .next (accept s) else engineEdge s

end Sys2Proof.Machine
end

