-- ==== Sys2Proof/Machine/BlockCommands.lean ====
section
/-! DEFINITION. The `ENC` and `DEC` commands (rules R115, R116, R120, R121). -/

namespace Sys2Proof.Machine

/-- `ENC block`: one edge at which it is presented (rules R120, R126 rows 4 and 6).  Its ten round steps are the following edges. -/
def execEnc (block : Word) (s : State) : Host.Outcome State Fault Refusal := presentCommand (acceptEnc block) s

/-- `DEC block`: one edge at which it is presented (rules R121, R126 rows 5 and 6).  Its eleven round steps are the following
edges. -/
def execDec (block : Word) (s : State) : Host.Outcome State Fault Refusal := presentCommand (acceptDec block) s

end Sys2Proof.Machine
end

