-- ==== Sys2Proof/Machine/LoadKey.lean ====
section
/-! DEFINITION. The `LDKEY` command (rules R82 to R84). -/

namespace Sys2Proof.Machine

/-- `LDKEY key`: one edge at which it is presented (rules R84, R126 row 3).  Its ten expansion steps are the following edges. -/
def execLdkey (key : Word) (s : State) : Host.Outcome State Fault Refusal := presentCommand (acceptLdkey key) s

end Sys2Proof.Machine
end

