-- ==== Sys2Proof/Machine/Reserved.lean ====
section
/-! DEFINITION. The reserved opcode `RSVD` (rules R67, R153). -/

namespace Sys2Proof.Machine

/-- `RSVD` accept: `respond(ERR_ILLOP, 0)`, whatever the data and `key_valid` (rule R153). -/
def acceptRsvd (_data : Word) (s : State) : State := raiseError statusErrIllOp s

/-- `RSVD data`: one edge at which it is presented (rules R67, R126 row 7, R153). -/
def execRsvd (data : Word) (s : State) : Host.Outcome State Fault Refusal := presentCommand (acceptRsvd data) s

end Sys2Proof.Machine
end

