-- ==== Sys2Proof/Machine/Dispatch.lean ====
section
/-! DEFINITION. One arm per command: what one rising edge with rst = 0 does when that command is presented on the command channel. -/

namespace Sys2Proof.Machine

def exec (i : Instr) (s : State) : Host.Outcome State Fault Refusal :=
  match i with
  | .rsvd data => Sys2Proof.Machine.execRsvd data s
  | .ldkey key => Sys2Proof.Machine.execLdkey key s
  | .enc block => Sys2Proof.Machine.execEnc block s
  | .dec block => Sys2Proof.Machine.execDec block s

end Sys2Proof.Machine
end

