-- ==== Sys2Proof/Machine/Step.lean ====
section
/-! DEFINITION. One step of the machine: one rising edge of `clk` (rule R126). -/

namespace Sys2Proof.Machine

/-- The step machine of rule R126.  At an edge with `rst = 1` the engine is reset (row 1); else, with `cmd_valid = 1`, the command on
the command ports is presented (rows 3 to 7, and 8 to 12 while it waits); else the engine takes the step of its phase (rows 2 and
8 to 12).  Then the edge has passed. -/
def step (s : State) : Host.Outcome State Fault Refusal :=
  passEdge
    (if s.ports.rst then .next (resetStep s)
     else if s.ports.cmdValid then exec (decodeCmd (portWord s.ports)) s
     else engineEdge s)

/-- `s` with the command word `w` (its bits above `nbits` zero) presented at the next edge, that edge accepting it: `rst = 0`,
`cmd_valid = 1` and `phase = IDLE` (rule R61; log entry 3). -/
def State.withFetchWord (s : State) (nbits w : Nat) : State :=
  let cmd : CmdWord := BitVec.ofNat 130 (w % 2 ^ nbits)
  { s with
    phase := .idle
    pins := { rst := false, cmdValid := true, cmdOp := opField cmd, cmdData := dataField cmd, rspReady := false } :: s.pins.tail }

end Sys2Proof.Machine
end

