-- ==== Sys2Proof/Machine/CommandLevel.lean ====
section
/-! DEFINITION. The command-level machine of rule R125: each command is one transition from a cipher instance and a command to a
cipher instance and a response. -/

namespace Sys2Proof.Machine

/-- What remains between commands: the schedule and `key_valid` (rules R125, R183). -/
structure Cipher where
  /-- `RK[0..10]`. -/
  RK : Schedule
  /-- `key_valid`. -/
  keyValid : Bool
  deriving DecidableEq, Repr

/-- A response: `rsp_status` and `rsp_data` (rule R64). -/
structure Response where
  /-- `rsp_status`. -/
  status : BitVec 2
  /-- `rsp_data`. -/
  data : Word
  deriving DecidableEq, Repr

/-- `reset` of rule R125. -/
def Cipher.reset : Cipher := { RK := Vector.replicate 11 0#128, keyValid := false }

/-- The cipher instance a state of the engine holds. -/
def State.cipher (s : State) : Cipher := { RK := s.RK, keyValid := s.keyValid }

/-- The pair of output ports `rsp_status`, `rsp_data` (rule R35). -/
def State.response (s : State) : Response := { status := s.rspStatus, data := s.rspData }

/-- `exec` of rule R125. -/
def commandExec (c : Cipher) : Instr → Cipher × Response
  | .rsvd _ => (c, { status := statusErrIllOp, data := 0#128 })
  | .ldkey k => ({ RK := expand k, keyValid := true }, { status := statusOk, data := 0#128 })
  | .enc b =>
    (c, if c.keyValid then { status := statusOk, data := encryptBlock c.RK b } else { status := statusErrNoKey, data := 0#128 })
  | .dec b =>
    (c, if c.keyValid then { status := statusOk, data := decryptBlock c.RK b } else { status := statusErrNoKey, data := 0#128 })

/-- The commands of a list one after the other, with their responses in order (rule R47). -/
def commandRun (c : Cipher) : List Instr → Cipher × List Response
  | [] => (c, [])
  | i :: is => ((commandRun (commandExec c i).1 is).1, (commandExec c i).2 :: (commandRun (commandExec c i).1 is).2)

/-- How many further micro-steps a command takes after its accept step before its response is presented: `LDKEY` 10, `ENC` 10,
`DEC` 11, the errors 0 (rules R126, R181). -/
def busySteps (c : Cipher) : Instr → Nat
  | .rsvd _ => 0
  | .ldkey _ => 10
  | .enc _ => if c.keyValid then 10 else 0
  | .dec _ => if c.keyValid then 11 else 0

end Sys2Proof.Machine
end

