-- ==== Sys2Proof/Machine/HostProcedures.lean ====
section
/-! DEFINITION. The host's procedures (44_message_codec_host.md, rules R130 to R144): not part of the engine, but the program of the
host that drives it, written over the command-level machine. -/

namespace Sys2Proof.Machine

/-- What a host procedure reports to its caller (rules R12, R142). -/
inductive HostError where
  /-- The key is not exactly 16 bytes (rule R131). -/
  | invalidKeyLength
  /-- A buffer that is not exactly 16 bytes reaches a block procedure (rule R132). -/
  | invalidBlockLength
  /-- The ciphertext's length is not a positive multiple of 16 (rule R135). -/
  | invalidCiphertextLength
  /-- The last decrypted byte is 0 or above 16 (rule R138). -/
  | malformedPadding
  /-- The engine answered a block command with an error status: the host has no Cipher, a host program error with no name in the
  spec (rules R132, R152; log entry 8). -/
  | noCipher
  deriving DecidableEq, Repr

/-- A host procedure's end: its result or the error it raised, the engine's cipher instance, and the commands it issued in order. -/
structure HostRun (α : Type) where
  /-- What the procedure reports to its caller. -/
  result : Except HostError α
  /-- The cipher instance the engine holds afterwards. -/
  cipher : Cipher
  /-- The commands issued, first to last. -/
  issued : List Instr

/-- The procedure stops, issues no further command and reports the error (rules R12, R142). -/
def raise {α : Type} (e : HostError) (c : Cipher) : HostRun α := { result := .error e, cipher := c, issued := [] }

/-- `NEWCIPHER(key)` (rule R131). -/
def newCipher (key : List Byte) (c : Cipher) : HostRun Unit :=
  if keyLengthOk key then
    { result := .ok (), cipher := (commandExec c (.ldkey (be128 key))).1, issued := [.ldkey (be128 key)] }
  else raise .invalidKeyLength c

/-- Issue one block command, take its response and return its bytes (rule R132; status before data, rule R179). -/
def issueBlock (i : Instr) (c : Cipher) : HostRun (List Byte) :=
  { result := if (commandExec c i).2.status = statusOk then .ok (bytes16 (commandExec c i).2.data) else .error .noCipher
    cipher := (commandExec c i).1
    issued := [i] }

/-- `ENCBLK(buf)` (rule R132). -/
def encBlk (buf : List Byte) (c : Cipher) : HostRun (List Byte) :=
  if blockLengthOk buf then issueBlock (.enc (be128 buf)) c else raise .invalidBlockLength c

/-- `DECBLK(buf)` (rule R132). -/
def decBlk (buf : List Byte) (c : Cipher) : HostRun (List Byte) :=
  if blockLengthOk buf then issueBlock (.dec (be128 buf)) c else raise .invalidBlockLength c

/-- A block procedure over consecutive blocks in order, the results concatenated; the first error ends it (rules R134, R136, R142). -/
def overBlocks (blk : List Byte → Cipher → HostRun (List Byte)) : List (List Byte) → Cipher → HostRun (List Byte)
  | [], c => { result := .ok [], cipher := c, issued := [] }
  | b :: bs, c =>
    match (blk b c).result with
    | .error e => { result := .error e, cipher := (blk b c).cipher, issued := (blk b c).issued }
    | .ok x =>
      { result := (overBlocks blk bs (blk b c).cipher).result.map (x ++ ·)
        cipher := (overBlocks blk bs (blk b c).cipher).cipher
        issued := (blk b c).issued ++ (overBlocks blk bs (blk b c).cipher).issued }

/-- The consecutive 16-byte slices `m[16t .. 16t+15]`, t = 0 .. len(m)/16 - 1 (rules R134, R136). -/
def blocksOf (m : List Byte) : List (List Byte) := (List.range (m.length / 16)).map fun t => (m.drop (16 * t)).take 16

/-- `pad_len = 16 - (len(m) mod 16)` (rule R133). -/
def padLen (m : List Byte) : Nat := 16 - m.length % 16

/-- `PAD(m) = m ++ [pad_len repeated pad_len times]` (rule R133). -/
def pad (m : List Byte) : List Byte := m ++ List.replicate (padLen m) (BitVec.ofNat 8 (padLen m))

/-- `ENCMSG(m)` (rule R134). -/
def encMsg (m : List Byte) (c : Cipher) : HostRun (List Byte) := overBlocks encBlk (blocksOf (pad m)) c

/-- The last step of `DECMSG`: read the final byte as `pad_len` and remove that many bytes without checking them, or raise
`MalformedPadding` when it is 0 or above 16 (rules R136, R137, R138). -/
def stripPad (d : List Byte) : Except HostError (List Byte) :=
  match d.getLast? with
  | none => .error .malformedPadding
  | some b => if b.toNat = 0 ∨ 16 < b.toNat then .error .malformedPadding else .ok (d.take (d.length - b.toNat))

/-- `DECMSG(c)` of a buffer `ct` (rules R135, R136). -/
def decMsg (ct : List Byte) (c : Cipher) : HostRun (List Byte) :=
  if ciphertextLengthOk ct then
    { result := (overBlocks decBlk (blocksOf ct) c).result.bind stripPad
      cipher := (overBlocks decBlk (blocksOf ct) c).cipher
      issued := (overBlocks decBlk (blocksOf ct) c).issued }
  else raise .invalidCiphertextLength c

/-- `generate_key()`, the n-th call: 16 bytes, otherwise free (rule R143). -/
def generateKey (n : Nat) : List Byte := (Config.generatedKey n).toList

end Sys2Proof.Machine
end

