-- ==== Sys2Proof/Machine/TextNotation.lean ====
section
/-! DEFINITION. Text: the hex helpers of a host (rule R144) and the notation of command sequences (rule R70). -/

namespace Sys2Proof.Machine

/-- The upper-case hex digits in order (rule R144). -/
def hexDigits : List Char := ['0', '1', '2', '3', '4', '5', '6', '7', '8', '9', 'A', 'B', 'C', 'D', 'E', 'F']

/-- The hex digit of a nibble. -/
def hexDigit (v : Nibble) : Char := hexDigits.getD v.toNat '0'

/-- The nibble of an upper-case hex digit, none for another character. -/
def hexValue (ch : Char) : Option Nibble := (hexDigits.idxOf? ch).map (BitVec.ofNat 4)

/-- `bytes_to_hex(data)`: each byte as two upper-case digits, most significant nibble first, bytes in order (rule R144). -/
def bytesToHex : List Byte → List Char
  | [] => []
  | b :: bs => hexDigit (b.extractLsb' 4 4) :: hexDigit (b.extractLsb' 0 4) :: bytesToHex bs

/-- The bytes of a text that is an even number of upper-case hex digits, none for another text. -/
def parseHex : List Char → Option (List Byte)
  | [] => some []
  | [_] => none
  | h :: l :: rest =>
    match hexValue h, hexValue l, parseHex rest with
    | some hi, some lo, some bs => some ((hi ++ lo : BitVec (4 + 4)) :: bs)
    | _, _, _ => none

/-- `hex_to_bytes(string)`: the inverse of `bytes_to_hex`; on any other text a free value (rule R144; log entry 10). -/
def hexToBytes (t : List Char) : Option (List Byte) :=
  match parseHex t with
  | some bs => some bs
  | none => Config.hexToBytesOther t

/-- The mnemonic of a command in the text notation (rule R70). -/
def mnemonicOf : Instr → String
  | .rsvd _ => "RSVD"
  | .ldkey _ => "LDKEY"
  | .enc _ => "ENC"
  | .dec _ => "DEC"

/-- A command line: the mnemonic, a space and the 32 hex digits of `data` (rule R70). -/
def commandLine (i : Instr) : String := mnemonicOf i ++ " " ++ String.ofList (bytesToHex (bytes16 i.data))

/-- The 33 hex digits of a command word, the first being `op` (rule R70). -/
def commandWordText (i : Instr) : String :=
  String.ofList (hexDigit (i.opcode.setWidth 4) :: bytesToHex (bytes16 i.data))

/-- The name of a status code (rule R65); `0b11` is never produced and has none. -/
def statusName (st : BitVec 2) : Option String :=
  if st = statusOk then some "OK"
  else if st = statusErrNoKey then some "ERR_NOKEY"
  else if st = statusErrIllOp then some "ERR_ILLOP"
  else none

/-- A response as written after `->`: the status name and 32 hex digits (rule R70). -/
def responseText (r : Response) : Option String :=
  (statusName r.status).map fun n => n ++ " " ++ String.ofList (bytesToHex (bytes16 r.data))

/-- One line of a command sequence (rule R70). -/
inductive Line where
  /-- A command line: present the command, wait until it is accepted, wait for the response, take it. -/
  | command (i : Instr)
  /-- `RESET`: assert `rst` for one rising edge. -/
  | reset
  deriving DecidableEq, Repr

/-- A line as written. -/
def lineText : Line → String
  | .command i => commandLine i
  | .reset => "RESET"

/-- What a line stands for at command level: the cipher instance after it and its response; a reset has none (rules R70, R125). -/
def lineExec (c : Cipher) : Line → Cipher × Option Response
  | .command i => ((commandExec c i).1, some (commandExec c i).2)
  | .reset => (Cipher.reset, none)

/-- The responses of a command sequence, line by line (rule R70). -/
def lineRun (c : Cipher) : List Line → List (Option Response)
  | [] => []
  | l :: ls => (lineExec c l).2 :: lineRun (lineExec c l).1 ls

end Sys2Proof.Machine
end

