-- ==== Sys2Proof/Safety.lean ====
section
/-! DEFINITION. The terms claims are stated in: the invariants of rule R34, a run that never stops, and what passes over the
two channels during a run. -/

namespace Sys2Proof.Machine

/-- Rule R34 (a): `IDLE` holds nothing of a command. -/
abbrev State.IdleClean (s : State) : Prop := s.phase = .idle → s.S = 0#128 ∧ s.rnd = 0#4 ∧ s.rstat = 0#2

/-- Rule R34 (b): a valid schedule is the expansion of its first key. -/
abbrev State.ScheduleExpanded (s : State) : Prop := s.keyValid = true → s.RK = expand s.RK[0]

/-- Rule R34 (c): a block is processed only under a valid schedule. -/
abbrev State.BlockHasKey (s : State) : Prop := s.phase = .encr ∨ s.phase = .decr → s.keyValid = true

/-- Rule R34 (d): during `KEXP` the keys below `rnd` are the new schedule's and `key_valid` is 0. -/
abbrev State.ExpansionPrefix (s : State) : Prop :=
  s.phase = .kexp →
    s.keyValid = false ∧ 1 ≤ s.rnd.toNat ∧ s.rnd.toNat ≤ 10 ∧
      ∀ i : Fin 10, i.val + 1 < s.rnd.toNat → s.RK[i.val + 1] = kstep s.RK[i.val] (i.val + 1)

/-- Rule R34 (e): the round index of a running block. -/
abbrev State.RoundInRange (s : State) : Prop :=
  (s.phase = .encr → 1 ≤ s.rnd.toNat ∧ s.rnd.toNat ≤ 10) ∧ (s.phase = .decr → s.rnd.toNat ≤ 10)

/-- Rule R34 (f): a pending response. -/
abbrev State.ResponseClean (s : State) : Prop :=
  s.phase = .resp → s.rnd = 0#4 ∧ (s.rstat ≠ statusOk → s.S = 0#128)

/-- The invariants of rule R34, (a) to (f). -/
abbrev State.Inv (s : State) : Prop :=
  s.IdleClean ∧ s.ScheduleExpanded ∧ s.BlockHasKey ∧ s.ExpansionPrefix ∧ s.RoundInRange ∧ s.ResponseClean

/-- The six items of rule R20 are the same in both states. -/
abbrev State.SameEngine (s t : State) : Prop :=
  s.RK = t.RK ∧ s.S = t.S ∧ s.keyValid = t.keyValid ∧ s.phase = t.phase ∧ s.rnd = t.rnd ∧ s.rstat = t.rstat

/-- A safe run: no number of edges makes the machine stop. -/
def State.Safe (s : State) : Prop := ∀ n, ∃ t, Sys2Proof.core.run n s = .next t

/-- `rst = 0` at each of the next n edges. -/
abbrev State.ResetLow (s : State) (n : Nat) : Prop := ∀ k, k < n → (s.portsAt k).rst = false

/-- The host does not take a response at the edges a, …, a + n - 1. -/
abbrev State.HostWaits (s : State) (a n : Nat) : Prop := ∀ k, a ≤ k → k < a + n → (s.portsAt k).rspReady = false

/-- The command presented on the command ports at the next edge, if `rst = 0` and `cmd_valid = 1` (rule R61). -/
def State.presented (s : State) : Option Instr :=
  if s.ports.rst = false ∧ s.ports.cmdValid = true then some (decodeCmd (portWord s.ports)) else none

/-- `CmdAccept`: the command accepted at the next edge (rule R51). -/
def State.accepted (s : State) : Option Instr := if s.cmdReady then s.presented else none

/-- `RspTake`: the response the host receives at the next edge (rules R51, R122). -/
def State.taken (s : State) : Option Response :=
  if s.ports.rst = false ∧ s.rspValid = true ∧ s.ports.rspReady = true then some s.response else none

/-- The commands accepted during the next n edges, first to last. -/
def acceptedIn : Nat → State → List Instr
  | 0, _ => []
  | n + 1, s =>
    s.accepted.toList ++
      match step s with
      | .next t => acceptedIn n t
      | .fault _ => []
      | .refused _ => []

/-- The responses taken during the next n edges, first to last. -/
def takenIn : Nat → State → List Response
  | 0, _ => []
  | n + 1, s =>
    s.taken.toList ++
      match step s with
      | .next t => takenIn n t
      | .fault _ => []
      | .refused _ => []

end Sys2Proof.Machine
end

