-- ==== Sys2Proof/Certificates/Slice0/Obligations.lean ====
section
/-! DEFINITION. The statements about the model, from the spec's numbered rules.  Every state is quantified over unless a premise says
otherwise; the inputs of the coming edges are part of the state (`State.portsAt`), so a statement about a run speaks of every host.
There is no memory (rule R40), so no frame speaks of memory.  `exec i s` is one edge with `rst = 0` at which `i` is presented. -/

open Sys2Proof Sys2Proof.Machine

/-! ### Encoding and the step -/

/-- Rules R62, R63: decoding and encoding are inverse to each other, and `op` and `data` stand at bits 129:128 and 127:0. -/
def Obligations.EncodeAndDecodeAgree : Prop :=
  (∀ i : Instr, i.wf = true → decodeCmd (encode i) = i) ∧
  (∀ w : CmdWord, encode (decodeCmd w) = w) ∧
  ∀ d : Word,
    ((encode (.rsvd d)).extractLsb' 128 2 = 0b00#2 ∧ (encode (.rsvd d)).extractLsb' 0 128 = d) ∧
    ((encode (.ldkey d)).extractLsb' 128 2 = 0b01#2 ∧ (encode (.ldkey d)).extractLsb' 0 128 = d) ∧
    ((encode (.enc d)).extractLsb' 128 2 = 0b10#2 ∧ (encode (.enc d)).extractLsb' 0 128 = d) ∧
    ((encode (.dec d)).extractLsb' 128 2 = 0b11#2 ∧ (encode (.dec d)).extractLsb' 0 128 = d)

/-- Rule R63, the words of spec/95_test_vectors.md (KS2, BV4, EV4) and the four opcodes over a zero operand. -/
def Obligations.CommandWordsOfTheSpecDecode : Prop :=
  decodeCmd 0x1000102030405060708090A0B0C0D0E0F#130 = .ldkey 0x000102030405060708090A0B0C0D0E0F#128 ∧
  decodeCmd 0x200112233445566778899AABBCCDDEEFF#130 = .enc 0x00112233445566778899AABBCCDDEEFF#128 ∧
  decodeCmd 0x300112233445566778899AABBCCDDEEFF#130 = .dec 0x00112233445566778899AABBCCDDEEFF#128 ∧
  decodeCmd 0x0FFFFFFFFFFFFFFFFFFFFFFFFFFFFFFFF#130 = .rsvd 0xFFFFFFFFFFFFFFFFFFFFFFFFFFFFFFFF#128 ∧
  decodeCmd 0x0#130 = .rsvd 0#128 ∧
  decodeTableWord 136 0x3FFFFFFFFFFFFFFFFFFFFFFFFFFFFFFFF = some (.dec 0xFFFFFFFFFFFFFFFFFFFFFFFFFFFFFFFF#128)

/-- The model's choice (log entry 11): a number is rejected exactly when it has a bit above the command word's bit 129. -/
def Obligations.DecodeRejectsExactlyWiderNumbers : Prop :=
  ∀ n : Nat, (decodeWord n = .error .widerThanCommandWord ↔ 2 ^ 130 ≤ n) ∧
    (n < 2 ^ 130 → decodeWord n = .ok (decodeCmd (BitVec.ofNat 130 n)))

/-- Rules R61, R126: with `rst = 0` and `cmd_valid = 1` the step is `exec` of the command the ports' word decodes to, after which the
edge has passed; with `cmd_valid = 0` it is the step of the phase.  The third clause is the model's own choice (log entry 3, a DESIGN
CHOICE, and no rule of the spec): `withFetchWord` sets `phase` to `IDLE` and places the word at the head of `pins`, so that the word is
the command of the next step.  That an edge takes the head of `pins` and counts itself is the model's choice too (log entry 2). -/
def Obligations.StepRunsThePresentedCommand : Prop :=
  (∀ (s : State) (i : Instr), s.ports.rst = false → s.ports.cmdValid = true → decodeCmd (portWord s.ports) = i →
    step s = passEdge (exec i s)) ∧
  (∀ s : State, s.ports.rst = false → s.ports.cmdValid = false → step s = passEdge (engineEdge s)) ∧
  (∀ (s : State) (nbits w : Nat) (i : Instr), decodeTableWord nbits w = some i →
    (s.withFetchWord nbits w).phase = .idle ∧
    step (s.withFetchWord nbits w) = passEdge (exec i (s.withFetchWord nbits w))) ∧
  (∀ t : State, passEdge (.next t) = .next { t with pins := t.pins.tail, edges := t.edges + 1 })

/-- Rule R126: the step machine, row by row, and the fixed number of micro-steps of each command. -/
def Obligations.StepMachineTable : Prop :=
  (∀ s : State,
    (s.ports.rst = true → step s = .next { State.reset with pins := s.pins.tail, edges := s.edges + 1 }) ∧
    (s.ports.rst = false →
      (s.phase = .idle → s.ports.cmdValid = false →
        step s = .next { s with pins := s.pins.tail, edges := s.edges + 1 }) ∧
      (s.phase = .idle → s.ports.cmdValid = true → s.ports.cmdOp = 0b01#2 →
        step s = .next { s with
          RK := s.RK.set 0 s.ports.cmdData, keyValid := false, S := 0#128, rnd := 1#4, phase := .kexp,
          pins := s.pins.tail, edges := s.edges + 1 }) ∧
      (s.phase = .idle → s.ports.cmdValid = true → s.ports.cmdOp = 0b10#2 → s.keyValid = true →
        step s = .next { s with
          S := s.ports.cmdData ^^^ s.RK[0], rnd := 1#4, phase := .encr, pins := s.pins.tail, edges := s.edges + 1 }) ∧
      (s.phase = .idle → s.ports.cmdValid = true → s.ports.cmdOp = 0b11#2 → s.keyValid = true →
        step s = .next { s with
          S := s.ports.cmdData, rnd := 10#4, phase := .decr, pins := s.pins.tail, edges := s.edges + 1 }) ∧
      (s.phase = .idle → s.ports.cmdValid = true → s.ports.cmdOp = 0b10#2 ∨ s.ports.cmdOp = 0b11#2 → s.keyValid = false →
        step s = .next { s with
          S := 0#128, rstat := 0b01#2, rnd := 0#4, phase := .resp, pins := s.pins.tail, edges := s.edges + 1 }) ∧
      (s.phase = .idle → s.ports.cmdValid = true → s.ports.cmdOp = 0b00#2 →
        step s = .next { s with
          S := 0#128, rstat := 0b10#2, rnd := 0#4, phase := .resp, pins := s.pins.tail, edges := s.edges + 1 }) ∧
      (s.phase = .kexp → ∀ i, ∀ hi : i < 10, s.rnd.toNat = i + 1 →
        step s = .next { s with
          RK := s.RK.set (i + 1) (kstep s.RK[i] (i + 1))
          keyValid := if i + 1 = 10 then true else s.keyValid
          rnd := if i + 1 = 10 then 0#4 else BitVec.ofNat 4 (i + 2)
          rstat := if i + 1 = 10 then 0b00#2 else s.rstat
          phase := if i + 1 = 10 then .resp else .kexp
          pins := s.pins.tail
          edges := s.edges + 1 }) ∧
      (s.phase = .encr → ∀ r, ∀ hr : r < 11, 1 ≤ r → s.rnd.toNat = r →
        step s = .next { s with
          S := ernd s.S s.RK[r]
          rnd := if r = 10 then 0#4 else BitVec.ofNat 4 (r + 1)
          rstat := if r = 10 then 0b00#2 else s.rstat
          phase := if r = 10 then .resp else .encr
          pins := s.pins.tail
          edges := s.edges + 1 }) ∧
      (s.phase = .decr → ∀ r, ∀ hr : r < 11, s.rnd.toNat = r →
        step s = .next { s with
          S := if r = 0 then s.S ^^^ s.RK[0] else drnd s.S s.RK[r]
          rnd := BitVec.ofNat 4 (r - 1)
          rstat := if r = 0 then 0b00#2 else s.rstat
          phase := if r = 0 then .resp else .decr
          pins := s.pins.tail
          edges := s.edges + 1 }) ∧
      (s.phase = .resp → s.ports.rspReady = true →
        step s = .next { s with
          S := 0#128, rstat := 0#2, phase := .idle, pins := s.pins.tail, edges := s.edges + 1 }) ∧
      (s.phase = .resp → s.ports.rspReady = false →
        step s = .next { s with pins := s.pins.tail, edges := s.edges + 1 }))) ∧
  (∀ (s : State) (i : Instr), s.phase = .idle → s.presented = some i → s.ResetLow (busySteps s.cipher i + 1) →
    (∃ t, Sys2Proof.core.run (busySteps s.cipher i + 1) s = .next t ∧ t.phase = .resp) ∧
    (∀ k, k < busySteps s.cipher i → ∃ u, Sys2Proof.core.run (k + 1) s = .next u ∧ u.phase ≠ .idle ∧ u.phase ≠ .resp))

/-- Rules R61, R126, R170: outside `IDLE` the command ports are ignored; outside `RESP` `rsp_ready` is ignored; in `IDLE` with
`cmd_valid = 0` `cmd_op` and `cmd_data` have no effect; with `rst = 1` no other input has an effect. -/
def Obligations.IgnoredInputsHaveNoEffect : Prop :=
  ∀ (s : State) (p q : PortIn) (rest : List PortIn), p.rst = q.rst →
    (s.phase ≠ .idle → p.rspReady = q.rspReady →
      step { s with pins := p :: rest } = step { s with pins := q :: rest }) ∧
    (s.phase ≠ .resp → p.cmdValid = q.cmdValid → p.cmdOp = q.cmdOp → p.cmdData = q.cmdData →
      step { s with pins := p :: rest } = step { s with pins := q :: rest }) ∧
    (p.cmdValid = false → q.cmdValid = false → p.rspReady = q.rspReady →
      step { s with pins := p :: rest } = step { s with pins := q :: rest }) ∧
    (p.rst = true → step { s with pins := p :: rest } = step { s with pins := q :: rest })

/-- Rules R61, R126: a command presented while the engine is busy waits: `exec` gives what the edge gives without it. -/
def Obligations.CommandWaitsWhileBusy : Prop :=
  ∀ (s : State) (i : Instr), s.phase ≠ .idle →
    exec i s = engineEdge s ∧ s.accepted = none ∧ s.cmdReady = false

/-! ### Reset, outputs and invariants -/

/-- Rule R171: the reset step, whatever the state and whatever the other inputs. -/
def Obligations.ResetStepResetsEverything : Prop :=
  ∀ s : State, s.ports.rst = true →
    ∃ t, step s = .next t ∧ (∀ i, ∀ hi : i < 11, t.RK[i] = 0#128) ∧ t.S = 0#128 ∧ t.keyValid = false ∧ t.phase = .idle ∧
      t.rnd = 0#4 ∧ t.rstat = 0#2 ∧ t.cmdReady = true ∧ t.rspValid = false ∧ t.rspStatus = 0#2 ∧ t.rspData = 0#128

/-- Rules R33, R34: the reset values, the outputs after reset, and the invariants hold right after reset. -/
def Obligations.ResetStateMeetsTheInvariants : Prop :=
  (∀ i, ∀ hi : i < 11, State.reset.RK[i] = 0#128) ∧ State.reset.S = 0#128 ∧ State.reset.keyValid = false ∧
  State.reset.phase = .idle ∧ State.reset.rnd = 0#4 ∧ State.reset.rstat = 0#2 ∧
  State.reset.cmdReady = true ∧ State.reset.rspValid = false ∧ State.reset.rspStatus = 0#2 ∧ State.reset.rspData = 0#128 ∧
  State.reset.Inv

/-- Rule R34: every step keeps the six invariants, from every state that meets them. -/
def Obligations.StepKeepsInvariants : Prop :=
  ∀ s t : State, s.Inv → step s = .next t → t.Inv

/-- Rule R34: the six invariants hold in every state reachable from reset, whatever the inputs are. -/
def Obligations.InvariantsHoldOnEveryRunFromReset : Prop :=
  ∀ (inputs : List PortIn) (n : Nat) (t : State),
    Sys2Proof.core.run n { State.reset with pins := inputs } = .next t → t.Inv

/-- Rules R25, R34: a machine that meets the invariants never stops, whatever the inputs are. -/
def Obligations.InvariantStatesRunForever : Prop :=
  ∀ s : State, s.Inv → s.Safe

/-- Rule R65 (and U11): the status code `0b11` is never produced. -/
def Obligations.StatusThreeIsNeverProduced : Prop :=
  (∀ s t : State, s.rstat ≠ 0b11#2 → step s = .next t → t.rstat ≠ 0b11#2) ∧
  (∀ s : State, s.rstat ≠ 0b11#2 → s.rspStatus ≠ 0b11#2) ∧
  State.reset.rstat ≠ 0b11#2

/-- Rule R35: the four outputs are functions of `phase`, `rstat` and `S`. -/
def Obligations.OutputsAreFunctionsOfTheState : Prop :=
  ∀ s : State,
    (s.cmdReady = true ↔ s.phase = .idle) ∧ (s.rspValid = true ↔ s.phase = .resp) ∧
    (s.phase = .resp → s.rspStatus = s.rstat ∧ s.rspData = s.S) ∧
    (s.phase ≠ .resp → s.rspStatus = 0#2 ∧ s.rspData = 0#128)

/-- Rule R31: no output depends on the schedule, on `rnd` or on `key_valid`, and in the busy phases none depends on `S`. -/
def Obligations.OutputsHideKeyAndIntermediateState : Prop :=
  ∀ s t : State, s.phase = t.phase → (s.phase = .resp → s.S = t.S ∧ s.rstat = t.rstat) →
    s.cmdReady = t.cmdReady ∧ s.rspValid = t.rspValid ∧ s.rspStatus = t.rspStatus ∧ s.rspData = t.rspData

/-- Rules R65, R151, R179: in a state that meets the invariants, a response with another status than `OK` carries data 0. -/
def Obligations.ErrorResponsesCarryNoData : Prop :=
  ∀ s : State, s.Inv → s.rspStatus ≠ 0b00#2 → s.rspData = 0#128

/-! ### The commands -/

/-- Rules R82, R84: `LDKEY`, its accept step, and at command level `RK <- EXPAND(k)`, `key_valid <- 1`, response `OK` with data 0. -/
def Obligations.LdkeyLoadsTheExpandedSchedule : Prop :=
  (∀ (s : State) (k : Word), s.phase = .idle →
    exec (.ldkey k) s =
      .next { s with RK := s.RK.set 0 k, keyValid := false, S := 0#128, rnd := 1#4, phase := .kexp }) ∧
  (∀ (s : State) (k : Word), s.phase = .idle → s.presented = some (.ldkey k) → s.ResetLow 11 →
    Sys2Proof.core.run 11 s = .next { s with
      RK := expand k, keyValid := true, S := 0#128, rnd := 0#4, rstat := 0b00#2, phase := .resp,
      pins := s.pins.drop 11, edges := s.edges + 11 }) ∧
  (expand 0#128)[1] = 0x01000000000000000000000000000000#128 ∧
  (expand 0#128)[10] = 0x0A002002001801000A00600380200120#128

/-- Rules R115, R120: `ENC`, with a key loaded its accept step, `S` after each round, and its response `OK` with
`ENCRYPT_BLOCK(RK, b)`, `RK` and `key_valid` unchanged; with no key `respond(ERR_NOKEY, 0)`. -/
def Obligations.EncAnswersTheCiphertext : Prop :=
  (∀ (s : State) (b : Word), s.phase = .idle → s.keyValid = true →
    exec (.enc b) s = .next { s with S := b ^^^ s.RK[0], rnd := 1#4, phase := .encr }) ∧
  (∀ (s : State) (b : Word) (r : Nat), s.phase = .idle → s.keyValid = true → s.presented = some (.enc b) → r < 10 →
    s.ResetLow (r + 1) →
    Sys2Proof.core.run (r + 1) s = .next { s with
      S := (roundsUp.take r).foldl (fun x i => ernd x s.RK[i]) (ark b s.RK[0])
      rnd := BitVec.ofNat 4 (r + 1), phase := .encr, pins := s.pins.drop (r + 1), edges := s.edges + (r + 1) }) ∧
  (∀ (s : State) (b : Word), s.phase = .idle → s.keyValid = true → s.presented = some (.enc b) → s.ResetLow 11 →
    Sys2Proof.core.run 11 s = .next { s with
      S := encryptBlock s.RK b, rnd := 0#4, rstat := 0b00#2, phase := .resp,
      pins := s.pins.drop 11, edges := s.edges + 11 }) ∧
  (∀ (s : State) (b : Word), s.phase = .idle → s.keyValid = false →
    exec (.enc b) s = .next { s with S := 0#128, rstat := 0b01#2, rnd := 0#4, phase := .resp }) ∧
  encryptBlock (expand 0#128) 0#128 = 0xAD55460B99BD67E98055F64A207B2FE9#128 ∧
  encryptBlock (expand 0x000102030405060708090A0B0C0D0E0F#128) 0x00112233445566778899AABBCCDDEEFF#128 =
    0x39A57FC2B3E581411C7A7AE096EBCE12#128

/-- Rules R116, R121: `DEC`, with a key loaded its accept step, `S` after each round, and its response `OK` with
`DECRYPT_BLOCK(RK, c)`, `RK` and `key_valid` unchanged, for every 128-bit c; with no key `respond(ERR_NOKEY, 0)`. -/
def Obligations.DecAnswersThePlaintext : Prop :=
  (∀ (s : State) (c : Word), s.phase = .idle → s.keyValid = true →
    exec (.dec c) s = .next { s with S := c, rnd := 10#4, phase := .decr }) ∧
  (∀ (s : State) (c : Word) (r : Nat), s.phase = .idle → s.keyValid = true → s.presented = some (.dec c) → r < 11 →
    s.ResetLow (r + 1) →
    Sys2Proof.core.run (r + 1) s = .next { s with
      S := (roundsDown.take r).foldl (fun x i => drnd x s.RK[i]) c
      rnd := BitVec.ofNat 4 (10 - r), phase := .decr, pins := s.pins.drop (r + 1), edges := s.edges + (r + 1) }) ∧
  (∀ (s : State) (c : Word), s.phase = .idle → s.keyValid = true → s.presented = some (.dec c) → s.ResetLow 12 →
    Sys2Proof.core.run 12 s = .next { s with
      S := decryptBlock s.RK c, rnd := 0#4, rstat := 0b00#2, phase := .resp,
      pins := s.pins.drop 12, edges := s.edges + 12 }) ∧
  (∀ (s : State) (c : Word), s.phase = .idle → s.keyValid = false →
    exec (.dec c) s = .next { s with S := 0#128, rstat := 0b01#2, rnd := 0#4, phase := .resp }) ∧
  decryptBlock (expand 0x000102030405060708090A0B0C0D0E0F#128) 0x39A57FC2B3E581411C7A7AE096EBCE12#128 =
    0x00112233445566778899AABBCCDDEEFF#128 ∧
  decryptBlock (expand 0x000102030405060708090A0B0C0D0E0F#128) 0x00112233445566778899AABBCCDDEEFF#128 =
    0x32955B7CD1CEC9850B8A52788AA4754E#128

/-- Rule R152: `ENC` and `DEC` with no key answer `ERR_NOKEY` with data 0; `cmd_data` is not loaded, `RK` and `key_valid` are
unchanged. -/
def Obligations.BlockCommandWithoutKeyAnswersNoKey : Prop :=
  ∀ (s : State) (b : Word), s.phase = .idle → s.keyValid = false →
    exec (.enc b) s = .next { s with S := 0#128, rstat := 0b01#2, rnd := 0#4, phase := .resp } ∧
    exec (.dec b) s = .next { s with S := 0#128, rstat := 0b01#2, rnd := 0#4, phase := .resp }

/-- Rule R153: the reserved opcode answers `ERR_ILLOP` with data 0, whatever its data and whether or not a key is loaded; `RK` and
`key_valid` are unchanged. -/
def Obligations.ReservedOpcodeAnswersIllegal : Prop :=
  ∀ (s : State) (d : Word), s.phase = .idle →
    exec (.rsvd d) s = .next { s with S := 0#128, rstat := 0b10#2, rnd := 0#4, phase := .resp }

/-- Rules R84, R120, R121: the micro-steps that run while a command waits, with what each leaves unchanged, and the stop of a
`rnd` that selects no round key (the model's choice, log entry 5; no state that meets the invariants has one). -/
def Obligations.MicroStepsOfTheBusyPhases : Prop :=
  ∀ (s : State) (i : Instr),
    (s.phase = .kexp → ∀ j, ∀ hj : j < 10, s.rnd.toNat = j + 1 →
      exec i s = .next { s with
        RK := s.RK.set (j + 1) (rotl128 s.RK[j] 13 ^^^ (BitVec.ofNat 128 (j + 1) <<< 120))
        keyValid := if j = 9 then true else s.keyValid
        rnd := if j = 9 then 0#4 else s.rnd + 1#4
        rstat := if j = 9 then 0b00#2 else s.rstat
        phase := if j = 9 then .resp else .kexp }) ∧
    (s.phase = .encr → ∀ hr : s.rnd.toNat < 11,
      exec i s = .next { s with
        S := perm (sub s.S) ^^^ s.RK[s.rnd.toNat]
        rnd := if s.rnd = 10#4 then 0#4 else s.rnd + 1#4
        rstat := if s.rnd = 10#4 then 0b00#2 else s.rstat
        phase := if s.rnd = 10#4 then .resp else .encr }) ∧
    (s.phase = .decr → ∀ hr : s.rnd.toNat < 11,
      exec i s = .next { s with
        S := if s.rnd = 0#4 then s.S ^^^ s.RK[0] else invSub (invPerm (s.S ^^^ s.RK[s.rnd.toNat]))
        rnd := if s.rnd = 0#4 then 0#4 else s.rnd - 1#4
        rstat := if s.rnd = 0#4 then 0b00#2 else s.rstat
        phase := if s.rnd = 0#4 then .resp else .decr }) ∧
    (s.phase = .kexp ∧ s.rnd = 0#4 ∨ (s.phase = .kexp ∨ s.phase = .encr ∨ s.phase = .decr) ∧ 11 ≤ s.rnd.toNat →
      exec i s = .fault .roundKeyIndexOutOfRange)

/-- Rule R122: the response take step; the host receives the status and the data as they were before it; while `rsp_ready = 0`
nothing changes. -/
def Obligations.TakingTheResponse : Prop :=
  ∀ s : State, s.phase = .resp → s.ports.rst = false →
    (s.ports.rspReady = true →
      s.taken = some { status := s.rstat, data := s.S } ∧
      step s = .next { s with S := 0#128, rstat := 0#2, phase := .idle, pins := s.pins.tail, edges := s.edges + 1 }) ∧
    (s.ports.rspReady = false →
      s.taken = none ∧ step s = .next { s with pins := s.pins.tail, edges := s.edges + 1 })

/-- The frames of the four commands where they are accepted (rules R30, R83): what the accept step leaves unchanged. -/
def Obligations.AcceptedCommandFrames : Prop :=
  ∀ s t : State, s.phase = .idle →
    (∀ d, exec (.rsvd d) s = .next t → t.RK = s.RK ∧ t.keyValid = s.keyValid ∧ t.pins = s.pins ∧ t.edges = s.edges) ∧
    (∀ k, exec (.ldkey k) s = .next t →
      (∀ j, ∀ hj : j < 11, j ≠ 0 → t.RK[j] = s.RK[j]) ∧ t.rstat = s.rstat ∧ t.pins = s.pins ∧ t.edges = s.edges) ∧
    (∀ b, exec (.enc b) s = .next t →
      t.RK = s.RK ∧ t.keyValid = s.keyValid ∧ (s.keyValid = true → t.rstat = s.rstat) ∧ t.pins = s.pins ∧
      t.edges = s.edges) ∧
    (∀ c, exec (.dec c) s = .next t →
      t.RK = s.RK ∧ t.keyValid = s.keyValid ∧ (s.keyValid = true → t.rstat = s.rstat) ∧ t.pins = s.pins ∧
      t.edges = s.edges)

/-- Rules R21, R83: without reset, only the acceptance of an `LDKEY` and its expansion steps write the schedule or `key_valid`; an
expansion step writes only `RK[rnd]`. -/
def Obligations.OnlyLdkeyWritesTheSchedule : Prop :=
  ∀ s t : State, s.ports.rst = false → step s = .next t →
    (s.phase ≠ .kexp → (∀ k, s.accepted ≠ some (.ldkey k)) → t.RK = s.RK ∧ t.keyValid = s.keyValid) ∧
    (s.phase = .kexp → ∀ j, ∀ hj : j < 11, j ≠ s.rnd.toNat → t.RK[j] = s.RK[j]) ∧
    (s.phase = .kexp → s.rnd ≠ 10#4 → t.keyValid = s.keyValid)

/-- Rule R178: a response that the host does not take stays presented unchanged, for any number of edges. -/
def Obligations.UntakenResponseStaysForEver : Prop :=
  ∀ (s : State) (n : Nat), s.phase = .resp → s.ResetLow n → s.HostWaits 0 n →
    Sys2Proof.core.run n s = .next { s with pins := s.pins.drop n, edges := s.edges + n } ∧
    takenIn n s = [] ∧ acceptedIn n s = []

/-- Rule R127 (and R156, R157 for the errors): when the response of a command other than `LDKEY` has been taken, the engine is what
it was before the command was accepted. -/
def Obligations.BlockCommandsLeaveNoTrace : Prop :=
  ∀ (s : State) (i : Instr) (h : Nat), s.Inv → s.phase = .idle → s.presented = some i → (∀ k, i ≠ .ldkey k) →
    s.ResetLow (busySteps s.cipher i + h + 2) → s.HostWaits (busySteps s.cipher i + 1) h →
    (s.portsAt (busySteps s.cipher i + h + 1)).rspReady = true →
    Sys2Proof.core.run (busySteps s.cipher i + h + 2) s =
      .next { s with
        pins := s.pins.drop (busySteps s.cipher i + h + 2), edges := s.edges + (busySteps s.cipher i + h + 2) }

/-- Rule R123: from the acceptance of a command to the step that takes its response, however long the host waits, the step machine
delivers exactly the response of rule R125's `exec` and leaves `RK` and `key_valid` as it leaves them, the rest idle. -/
def Obligations.StepMachineRefinesCommandLevel : Prop :=
  ∀ (s : State) (i : Instr) (h : Nat), s.phase = .idle → s.presented = some i →
    s.ResetLow (busySteps s.cipher i + h + 2) → s.HostWaits (busySteps s.cipher i + 1) h →
    (s.portsAt (busySteps s.cipher i + h + 1)).rspReady = true →
    ∃ t u : State,
      Sys2Proof.core.run (busySteps s.cipher i + h + 1) s = .next t ∧ step t = .next u ∧
      acceptedIn (busySteps s.cipher i + h + 2) s = [i] ∧
      takenIn (busySteps s.cipher i + h + 1) s = [] ∧ t.taken = some (commandExec s.cipher i).2 ∧
      u.cipher = (commandExec s.cipher i).1 ∧ u.S = 0#128 ∧ u.rnd = 0#4 ∧ u.rstat = 0#2 ∧ u.phase = .idle

/-- Rules R47, R123: for every host and every number of edges without reset, the responses taken are the command-level responses of
the commands accepted, in the order accepted; at most one command is without its response, and none when the engine is in `IDLE`. -/
def Obligations.ResponsesFollowCommandsInOrder : Prop :=
  ∀ (s t : State) (n : Nat), s.phase = .idle → s.ResetLow n → Sys2Proof.core.run n s = .next t →
    takenIn n s = (commandRun s.cipher (acceptedIn n s)).2.take (takenIn n s).length ∧
    ((acceptedIn n s).length = (takenIn n s).length ∨ (acceptedIn n s).length = (takenIn n s).length + 1) ∧
    (t.phase = .idle →
      takenIn n s = (commandRun s.cipher (acceptedIn n s)).2 ∧ t.cipher = (commandRun s.cipher (acceptedIn n s)).1)

/-- Rule R182: from a busy phase, `RESP` is reached after at most 11 steps without reset, with no condition on the host. -/
def Obligations.BusyPhasesReachTheResponse : Prop :=
  ∀ s : State, s.Inv → s.phase = .kexp ∨ s.phase = .encr ∨ s.phase = .decr → s.ResetLow 11 →
    ∃ n, n ≤ 11 ∧ ∃ t, Sys2Proof.core.run n s = .next t ∧ t.phase = .resp

/-- Rule R172: a reset step abandons the command in progress and withdraws a pending response: at that edge no command is accepted
and no response taken, and afterwards no response comes before another command is accepted. -/
def Obligations.ResetAbandonsTheCommand : Prop :=
  ∀ s : State, s.ports.rst = true →
    s.accepted = none ∧ s.taken = none ∧
    ∃ t, step s = .next t ∧ t.phase = .idle ∧ t.keyValid = false ∧ t.rspValid = false ∧
      ∀ n, t.ResetLow n → acceptedIn n t = [] → takenIn n t = []

/-! ### The key schedule -/

/-- Rule R80: one key schedule step, the bits its XOR can change, and its value on the zero key. -/
def Obligations.KeyStepFormula : Prop :=
  (∀ (prev : Word) (i : Nat), 1 ≤ i → i ≤ 10 →
    kstep prev i = rotl128 prev 13 ^^^ (BitVec.ofNat 128 i <<< 120) ∧
    (∀ b, b < 128 → ¬(120 ≤ b ∧ b ≤ 123) → (kstep prev i).getLsbD b = (rotl128 prev 13).getLsbD b) ∧
    kstep 0#128 i = BitVec.ofNat 128 i <<< 120) ∧
  rotl128 0x000102030405060708090A0B0C0D0E0F#128 13 = 0x20406080A0C0E10121416181A1C1E000#128 ∧
  kstep 0x000102030405060708090A0B0C0D0E0F#128 1 = 0x21406080A0C0E10121416181A1C1E000#128

/-- Rule R85: the rotation by 13 as a wire permutation. -/
def Obligations.RotationByThirteenWiring : Prop :=
  (∀ v : Word,
    (rotl128 v 13).extractLsb' 13 115 = v.extractLsb' 0 115 ∧ (rotl128 v 13).extractLsb' 0 13 = v.extractLsb' 115 13 ∧
    ∀ b, b < 128 → (rotl128 v 13).getLsbD ((b + 13) % 128) = v.getLsbD b) ∧
  rotl128 0x80000000000000000000000000000000#128 13 = 0x00000000000000000000000000001000#128

/-- Rule R81: the schedule of a key. -/
def Obligations.ExpandIsTheSchedule : Prop :=
  (∀ k : Word, (expand k)[0] = k ∧ ∀ i, ∀ hi : i < 10, (expand k)[i + 1] = kstep (expand k)[i] (i + 1)) ∧
  (expand 0x000102030405060708090A0B0C0D0E0F#128)[1] = 0x21406080A0C0E10121416181A1C1E000#128 ∧
  (expand 0x000102030405060708090A0B0C0D0E0F#128)[2] = 0x0E1014181C2024282C3034383C000428#128 ∧
  (expand 0x000102030405060708090A0B0C0D0E0F#128)[10] = 0x0A04280E100C191C2A24482FB014391C#128

/-- Rule R86: the closed form of the schedule, its constants, and that it is affine. -/
def Obligations.ScheduleClosedForm : Prop :=
  (∀ (k : Word) (i : Nat) (hi : i < 11), (expand k)[i] = rotl128 k ((13 * i) % 128) ^^^ (expand 0#128)[i]) ∧
  (∀ (i : Nat) (hi : i < 11),
    (expand 0#128)[i] =
      (List.range i).foldl
        (fun x j => x ^^^ rotl128 (BitVec.ofNat 128 (j + 1) <<< 120) ((13 * (i - (j + 1))) % 128)) 0#128) ∧
  (∀ (a b : Word) (i : Nat) (hi : i < 11),
    (expand (a ^^^ b))[i] = (expand a)[i] ^^^ (expand b)[i] ^^^ (expand 0#128)[i])

/-- Rule R87 (c), (d): each key schedule step is a bijection, and different keys differ in every round key. -/
def Obligations.KeyStepIsABijection : Prop :=
  (∀ i, 1 ≤ i → i ≤ 10 → Function.Bijective (fun prev => kstep prev i)) ∧
  (∀ (k k' : Word) (i : Nat) (hi : i < 11), k ≠ k' → (expand k)[i] ≠ (expand k')[i])

/-! ### The layers and the block functions -/

/-- Rules R90, R91: the two tables, entry by entry, inverse to each other; `SBOX` is a permutation without a fixed point. -/
def Obligations.SubstitutionTables : Prop :=
  (List.range 16).map (fun v => (sbox (BitVec.ofNat 4 v)).toNat) =
    [0xC, 0x5, 0x6, 0xB, 0x9, 0x0, 0xA, 0xD, 0x3, 0xE, 0xF, 0x8, 0x4, 0x7, 0x1, 0x2] ∧
  (List.range 16).map (fun v => (invSbox (BitVec.ofNat 4 v)).toNat) =
    [0x5, 0xE, 0xF, 0x8, 0xC, 0x1, 0x2, 0xD, 0xB, 0x4, 0x6, 0x3, 0x0, 0x7, 0x9, 0xA] ∧
  (∀ v : Nibble, invSbox (sbox v) = v ∧ sbox (invSbox v) = v ∧ sbox v ≠ v)

/-- Rules R92, R93: the substitution layer nibble by nibble. -/
def Obligations.SubstitutionNibbleByNibble : Prop :=
  (∀ (s : Word) (i : Nat), i < 32 → nib (sub s) i = sbox (nib s i) ∧ nib (invSub s) i = invSbox (nib s i)) ∧
  sub 0#128 = 0xCCCCCCCCCCCCCCCCCCCCCCCCCCCCCCCC#128 ∧
  sub 0xFFFFFFFFFFFFFFFFFFFFFFFFFFFFFFFF#128 = 0x22222222222222222222222222222222#128 ∧
  sub 0x0123456789ABCDEFFEDCBA9876543210#128 = 0xC56B90AD3EF8471221748FE3DA09B65C#128 ∧
  invSub 0#128 = 0x55555555555555555555555555555555#128 ∧
  invSub 0xFFFFFFFFFFFFFFFFFFFFFFFFFFFFFFFF#128 = 0xAAAAAAAAAAAAAAAAAAAAAAAAAAAAAAAA#128 ∧
  invSub 0xC56B90AD3EF8471221748FE3DA09B65C#128 = 0x0123456789ABCDEFFEDCBA9876543210#128

/-- Rule R94: the laws of the substitution layer. -/
def Obligations.SubstitutionLaws : Prop :=
  (∀ s : Word, invSub (sub s) = s ∧ sub (invSub s) = s) ∧
  Function.Bijective sub ∧ Function.Bijective invSub ∧
  (∀ (a b : Word) (i : Nat), i < 32 → nib a i = nib b i → nib (sub a) i = nib (sub b) i) ∧
  (∃ a b : Word, sub (a ^^^ b) ≠ sub a ^^^ sub b)

/-- Rules R100, R101, R102: the permutation layer byte by byte. -/
def Obligations.PermutationByteByByte : Prop :=
  (List.range 16).map pshift = [0, 3, 6, 1, 4, 7, 2, 5, 0, 3, 6, 1, 4, 7, 2, 5] ∧
  (∀ p, p < 16 → pshift p = (p * 3) % 8) ∧
  (∀ (s : Word) (p : Nat), p < 16 →
    byteAt (perm s) p = rotl8 (byteAt s p) (pshift p) ∧ byteAt (invPerm s) p = rotr8 (byteAt s p) (pshift p) ∧
    rotr8 (byteAt s p) (pshift p) = rotl8 (byteAt s p) ((8 - pshift p) % 8)) ∧
  (∀ s : Word, (∀ p, p < 16 → p ≠ 0 → p ≠ 8 → byteAt s p = 0#8) → perm s = s ∧ invPerm s = s) ∧
  perm 0xFFFFFFFFFFFFFFFFFFFFFFFFFFFFFFFF#128 = 0xFFFFFFFFFFFFFFFFFFFFFFFFFFFFFFFF#128 ∧
  invPerm 0xFFFFFFFFFFFFFFFFFFFFFFFFFFFFFFFF#128 = 0xFFFFFFFFFFFFFFFFFFFFFFFFFFFFFFFF#128 ∧
  perm 0x01010101010101010101010101010101#128 = 0x20048010024008012004801002400801#128 ∧
  invPerm 0x20048010024008012004801002400801#128 = 0x01010101010101010101010101010101#128 ∧
  invPerm 0x01010101010101010101010101010101#128 = 0x08400210800420010840021080042001#128

/-- Rule R103: both permutations as bit wirings, and that they are XOR-linear. -/
def Obligations.PermutationBitWiring : Prop :=
  (∀ (s : Word) (p k : Nat), p < 16 → k < 8 →
    (perm s).getLsbD (8 * p + (k + pshift p) % 8) = s.getLsbD (8 * p + k) ∧
    (invPerm s).getLsbD (8 * p + (k + (8 - pshift p)) % 8) = s.getLsbD (8 * p + k)) ∧
  (∀ a b : Word, perm (a ^^^ b) = perm a ^^^ perm b ∧ invPerm (a ^^^ b) = invPerm a ^^^ invPerm b)

/-- Rule R104: the rotation of each byte by its index in the block's 16-byte buffer. -/
def Obligations.PermutationByBufferIndex : Prop :=
  (List.range 16).map (fun j => pshift (15 - j)) = [5, 2, 7, 4, 1, 6, 3, 0, 5, 2, 7, 4, 1, 6, 3, 0] ∧
  (∀ (s : Word) (j : Nat), j < 16 →
    (bytes16 (perm s))[j]? = ((bytes16 s)[j]?).map (fun b => rotl8 b (((15 - j) * 3) % 8))) ∧
  (∀ j, j < 16 → (j * 3) % 8 ≠ ((15 - j) * 3) % 8)

/-- Rule R105: the laws of the permutation layer. -/
def Obligations.PermutationLaws : Prop :=
  (∀ s : Word, invPerm (perm s) = s ∧ perm (invPerm s) = s) ∧
  Function.Bijective perm ∧ Function.Bijective invPerm ∧
  (∀ (a b : Word) (p : Nat), p < 16 → byteAt a p = byteAt b p →
    byteAt (perm a) p = byteAt (perm b) p ∧ byteAt (invPerm a) p = byteAt (invPerm b) p) ∧
  (∀ (s : Word) (p : Nat), p < 16 →
    (List.range 8).countP (fun j => (byteAt (perm s) p).getLsbD j) = (List.range 8).countP (fun j => (byteAt s p).getLsbD j) ∧
    (List.range 8).countP (fun j => (byteAt (invPerm s) p).getLsbD j) = (List.range 8).countP (fun j => (byteAt s p).getLsbD j))

/-- Rules R110, R111, R112: the rounds and that each undoes the other. -/
def Obligations.RoundsAreInverse : Prop :=
  (∀ s k : Word,
    ark s k = s ^^^ k ∧ ark (ark s k) k = s ∧ ernd s k = perm (sub s) ^^^ k ∧ drnd s k = invSub (invPerm (s ^^^ k)) ∧
    drnd (ernd s k) k = s ∧ ernd (drnd s k) k = s) ∧
  ark 0x00112233445566778899AABBCCDDEEFF#128 0x000102030405060708090A0B0C0D0E0F#128 =
    0x00102030405060708090A0B0C0D0E0F0#128 ∧
  sub 0x00102030405060708090A0B0C0D0E0F0#128 = 0xCC5C6CBC9C0CACDC3CECFC8C4C7C1C2C#128 ∧
  perm 0xCC5C6CBC9C0CACDC3CECFC8C4C7C1C2C#128 = 0x997136CB390365DC87B37EC8981FE02C#128 ∧
  ernd 0x00102030405060708090A0B0C0D0E0F0#128 0x21406080A0C0E10121416181A1C1E000#128 =
    0xB831564B99C384DDA6F21F4939DE002C#128 ∧
  drnd 0xB831564B99C384DDA6F21F4939DE002C#128 0x21406080A0C0E10121416181A1C1E000#128 =
    0x00102030405060708090A0B0C0D0E0F0#128

/-- Rules R113, R114: the block functions as chains of ten rounds over the eleven round keys in order. -/
def Obligations.BlockFunctionsRoundByRound : Prop :=
  (∀ (rk : Schedule) (b : Word), ∃ x : Nat → Word,
    x 0 = b ^^^ rk[0] ∧ (∀ r, ∀ hr : r < 10, x (r + 1) = ernd (x r) rk[r + 1]) ∧ encryptBlock rk b = x 10) ∧
  (∀ (rk : Schedule) (c : Word), ∃ x : Nat → Word,
    x 10 = c ∧ (∀ r, ∀ hr : r < 10, x r = drnd (x (r + 1)) rk[r + 1]) ∧ decryptBlock rk c = x 0 ^^^ rk[0]) ∧
  encryptBlock (expand 0x000102030405060708090A0B0C0D0E0F#128) 0x00112233445566778899AABBCCDDEEFF#128 =
    0x39A57FC2B3E581411C7A7AE096EBCE12#128 ∧
  decryptBlock (expand 0x000102030405060708090A0B0C0D0E0F#128) 0x39A57FC2B3E581411C7A7AE096EBCE12#128 =
    0x00112233445566778899AABBCCDDEEFF#128

/-- Rule R117: encryption and decryption are inverse to each other for every schedule, and bijections. -/
def Obligations.BlockFunctionsAreInverse : Prop :=
  ∀ rk : Schedule,
    (∀ x : Word, decryptBlock rk (encryptBlock rk x) = x ∧ encryptBlock rk (decryptBlock rk x) = x) ∧
    Function.Bijective (encryptBlock rk) ∧ Function.Bijective (decryptBlock rk)

/-- Rule R118: every byte of the block is an 8-bit cipher of its own, in both directions, and that 8-bit function is a permutation of
the bytes for every schedule. -/
def Obligations.EveryByteIsItsOwnCipher : Prop :=
  (∀ (rk : Schedule) (b : Word) (p : Nat), p < 16 →
    byteAt (encryptBlock rk b) p =
      roundsUp.foldl
        (fun (x : Byte) r =>
          rotl8 (sbox (x.extractLsb' 4 4) ++ sbox (x.extractLsb' 0 4) : BitVec (4 + 4)) (pshift p) ^^^ byteAt rk[r] p)
        (byteAt b p ^^^ byteAt rk[0] p)) ∧
  (∀ (rk rk' : Schedule) (c c' : Word) (p : Nat), p < 16 → (∀ r : Fin 11, byteAt rk[r] p = byteAt rk'[r] p) →
    byteAt c p = byteAt c' p → byteAt (decryptBlock rk c) p = byteAt (decryptBlock rk' c') p) ∧
  (∀ (rk : Schedule) (p : Nat), p < 16 →
    Function.Bijective fun b : Byte =>
      roundsUp.foldl
        (fun (x : Byte) r =>
          rotl8 (sbox (x.extractLsb' 4 4) ++ sbox (x.extractLsb' 0 4) : BitVec (4 + 4)) (pshift p) ^^^ byteAt rk[r] p)
        (b ^^^ byteAt rk[0] p)) ∧
  encryptBlock (expand 0x000102030405060708090A0B0C0D0E0F#128) 0x00112233445566778899AABBCCDDEEFF#128 =
    0x39A57FC2B3E581411C7A7AE096EBCE12#128 ∧
  encryptBlock (expand 0x000102030405060708090A0B0C0D0E0F#128) 0x00112233445599778899AABBCCDDEEFF#128 =
    0x39A57FC2B3E552411C7A7AE096EBCE12#128

/-- Rules R41, R42: the big-endian value of a 16-byte buffer and the buffer of a value, inverse to each other. -/
def Obligations.BigEndianBuffers : Prop :=
  (∀ b : List Byte, b.length = 16 →
    bytes16 (be128 b) = b ∧ ∀ j, ∀ hj : j < b.length, (be128 b).extractLsb' (120 - 8 * j) 8 = b[j]) ∧
  (∀ v : Word, (bytes16 v).length = 16 ∧ be128 (bytes16 v) = v ∧
    ∀ j, j < 16 → (bytes16 v)[j]? = some (v.extractLsb' (120 - 8 * j) 8)) ∧
  be128 [0x00#8, 0x01#8, 0x02#8, 0x03#8, 0x04#8, 0x05#8, 0x06#8, 0x07#8, 0x08#8, 0x09#8, 0x0A#8, 0x0B#8, 0x0C#8, 0x0D#8,
    0x0E#8, 0x0F#8] = 0x000102030405060708090A0B0C0D0E0F#128

/-! ### The host's procedures -/

/-- Rule R131: `NEWCIPHER` checks the length before any command; a 16-byte key is always accepted. -/
def Obligations.NewCipherChecksTheKeyLength : Prop :=
  (∀ c : Cipher,
    (newCipher [0x54#8, 0x65#8, 0x73#8, 0x74#8, 0x4B#8, 0x65#8, 0x79#8, 0x31#8, 0x32#8, 0x33#8, 0x34#8, 0x35#8, 0x36#8, 0x37#8,
      0x38#8, 0x39#8] c).issued = [.ldkey 0x546573744B6579313233343536373839#128]) ∧
  ∀ (key : List Byte) (c : Cipher),
    (key.length ≠ 16 →
      (newCipher key c).result = .error .invalidKeyLength ∧ (newCipher key c).issued = [] ∧ (newCipher key c).cipher = c) ∧
    (key.length = 16 →
      (newCipher key c).result = .ok () ∧ (newCipher key c).issued = [.ldkey (be128 key)] ∧
      (newCipher key c).cipher = { RK := expand (be128 key), keyValid := true })

/-- Rule R132: `ENCBLK` and `DECBLK` check the length before any command, then issue one and return the response's bytes; with no
key loaded the host learns so from the status (the name of that error is the model's, log entry 8). -/
def Obligations.BlockProceduresCheckTheLength : Prop :=
  ∀ (buf : List Byte) (c : Cipher),
    (buf.length ≠ 16 →
      (encBlk buf c).result = .error .invalidBlockLength ∧ (encBlk buf c).issued = [] ∧ (encBlk buf c).cipher = c ∧
      (decBlk buf c).result = .error .invalidBlockLength ∧ (decBlk buf c).issued = [] ∧ (decBlk buf c).cipher = c) ∧
    (buf.length = 16 →
      (encBlk buf c).issued = [.enc (be128 buf)] ∧ (decBlk buf c).issued = [.dec (be128 buf)] ∧
      (encBlk buf c).cipher = c ∧ (decBlk buf c).cipher = c ∧
      (c.keyValid = true →
        (encBlk buf c).result = .ok (bytes16 (encryptBlock c.RK (be128 buf))) ∧
        (decBlk buf c).result = .ok (bytes16 (decryptBlock c.RK (be128 buf)))) ∧
      (c.keyValid = false → (encBlk buf c).result = .error .noCipher ∧ (decBlk buf c).result = .error .noCipher))

/-- Rule R133: the padding, its amount and the padded length. -/
def Obligations.PaddingIsAlwaysAdded : Prop :=
  (∀ m : List Byte,
    1 ≤ padLen m ∧ padLen m ≤ 16 ∧ padLen m = 16 - m.length % 16 ∧
    pad m = m ++ List.replicate (padLen m) (BitVec.ofNat 8 (padLen m)) ∧
    (pad m).length % 16 = 0 ∧
    (pad m).length = (if m.length % 16 ≠ 0 then m.length + (16 - m.length % 16) else m.length + 16)) ∧
  pad [] = List.replicate 16 0x10#8 ∧
  pad [0x4D#8, 0x65#8, 0x73#8, 0x73#8, 0x61#8, 0x67#8, 0x65#8, 0x20#8, 0x6F#8, 0x6E#8, 0x65#8] =
    bytes16 0x4D657373616765206F6E650505050505#128

/-- Rules R134, R139: `ENCMSG` with a key loaded: the padded message's blocks encrypted in order, each on its own, the results
concatenated; one `ENC` a block, and no error of its own. -/
def Obligations.EncryptingAMessage : Prop :=
  (∀ (m : List Byte) (c : Cipher), c.keyValid = true →
    (encMsg m c).result = .ok ((blocksOf (pad m)).flatMap fun b => bytes16 (encryptBlock c.RK (be128 b))) ∧
    (encMsg m c).issued = (blocksOf (pad m)).map (fun b => .enc (be128 b)) ∧
    (encMsg m c).cipher = c ∧
    (blocksOf (pad m)).flatten = pad m ∧ (∀ b ∈ blocksOf (pad m), b.length = 16)) ∧
  (encMsg [] { RK := expand 0x546573744B6579313233343536373839#128, keyValid := true }).result =
    .ok (bytes16 0xE98CAB02C9B48B618C45E2CD85CF20DE#128)

/-- Rule R135: `DECMSG` of a buffer whose length is not a positive multiple of 16 raises `InvalidCiphertextLength`, issues no command
and leaves the engine as it is, key or no key. -/
def Obligations.DecryptRejectsBadLengths : Prop :=
  ∀ (ct : List Byte) (c : Cipher), ct.length % 16 ≠ 0 ∨ ct.length = 0 →
    (decMsg ct c).result = .error .invalidCiphertextLength ∧ (decMsg ct c).issued = [] ∧ (decMsg ct c).cipher = c

/-- Rules R136, R137, R138: `DECMSG` with a key loaded: one `DEC` a block in order; then the final byte alone decides: in 1..16 that many
bytes are removed unchecked, otherwise `MalformedPadding` and no plaintext.  With the worked examples under the key
`TestKey123456789` (vectors SC2, TP1, TP2, TP3). -/
def Obligations.DecryptingAMessage : Prop :=
  (∀ (ct : List Byte) (c : Cipher) (d : List Byte), c.keyValid = true → ct.length % 16 = 0 → ct.length ≠ 0 →
    d = (blocksOf ct).flatMap (fun b => bytes16 (decryptBlock c.RK (be128 b))) →
    (decMsg ct c).issued = (blocksOf ct).map (fun b => .dec (be128 b)) ∧ (decMsg ct c).cipher = c ∧
    (blocksOf ct).flatten = ct ∧ (∀ b ∈ blocksOf ct, b.length = 16) ∧
    ∃ last : Byte, d.getLast? = some last ∧
      (last.toNat = 0 ∨ 16 < last.toNat → (decMsg ct c).result = .error .malformedPadding) ∧
      (1 ≤ last.toNat → last.toNat ≤ 16 → (decMsg ct c).result = .ok (d.take (d.length - last.toNat)))) ∧
  ∀ c : Cipher, c = { RK := expand 0x546573744B6579313233343536373839#128, keyValid := true } →
    (decMsg (bytes16 0xE98CAB02C9B48B618C45E2CD85CF20DE#128) c).result = .ok [] ∧
    (decMsg (bytes16 0xE3311527D907653D8010340C2A5C53AA#128) c).result =
      .ok ((bytes16 0x41424344454647484950515253545503#128).take 13) ∧
    (decMsg (bytes16 0xE3311527D907653D8010340C2A5C53AE#128) c).result = .error .malformedPadding ∧
    (decMsg (bytes16 0xE3311527D907653D8010340C2A5C53DC#128) c).result = .error .malformedPadding

/-- Rule R141, the round trip: under any loaded schedule, decrypting the encryption of any message gives the message back. -/
def Obligations.MessageRoundTrip : Prop :=
  ∀ (m : List Byte) (c : Cipher), c.keyValid = true →
    ∃ ct, (encMsg m c).result = .ok ct ∧ ct.length = (pad m).length ∧ (decMsg ct c).result = .ok m

/-- Rule R144: `hex_to_bytes` is the inverse of `bytes_to_hex`, whose text is two upper-case hex digits a byte. -/
def Obligations.HexTextRoundTrip : Prop :=
  (∀ bs : List Byte,
    hexToBytes (bytesToHex bs) = some bs ∧ (bytesToHex bs).length = 2 * bs.length ∧ ∀ ch ∈ bytesToHex bs, ch ∈ hexDigits) ∧
  bytesToHex [0x1F#8, 0xA0#8] = ['1', 'F', 'A', '0']
end

