-- ==== Sys2Proof/Laws/Encoding.lean ====
section
/-! SUPPORT. The two fields of a command word (rule R62). -/

namespace Sys2Proof

/-- The opcode of a word put together from an opcode and an operand. -/
@[simp] theorem opField_append (op : BitVec 2) (data : Word) : opField (op ++ data : BitVec (2 + 128)) = op := by
  apply BitVec.eq_of_getLsbD_eq
  intro i hi
  simp only [opField, BitVec.getLsbD_extractLsb', BitVec.getLsbD_append, hi, decide_true, Bool.true_and]
  rw [if_neg (by omega), Nat.add_sub_cancel_left]

/-- The operand of a word put together from an opcode and an operand. -/
@[simp] theorem dataField_append (op : BitVec 2) (data : Word) : dataField (op ++ data : BitVec (2 + 128)) = data := by
  apply BitVec.eq_of_getLsbD_eq
  intro i hi
  simp only [dataField, BitVec.getLsbD_extractLsb', BitVec.getLsbD_append, hi, decide_true, Bool.true_and, Nat.zero_add,
    if_true]

/-- A command word is its two fields put together. -/
theorem append_fields (w : CmdWord) : (opField w ++ dataField w : BitVec (2 + 128)) = w := by
  apply BitVec.eq_of_getLsbD_eq
  intro i hi
  simp only [opField, dataField, BitVec.getLsbD_append, BitVec.getLsbD_extractLsb', Nat.zero_add]
  by_cases h : i < 128
  · simp only [h, decide_true, Bool.true_and, if_true]
  · rw [if_neg h, Nat.add_sub_cancel' (by omega)]
    simp only [show i - 128 < 2 by omega, decide_true, Bool.true_and]

/-- An opcode is one of the four of rule R63. -/
theorem opcode_cases (op : BitVec 2) : op = 0b00#2 ∨ op = 0b01#2 ∨ op = 0b10#2 ∨ op = 0b11#2 := by
  revert op
  decide

/-- The four rows of the opcode map (rule R63). -/
@[simp] theorem decodeOp_rsvd (data : Word) : decodeOp 0b00#2 data = .rsvd data := rfl
@[simp] theorem decodeOp_ldkey (data : Word) : decodeOp 0b01#2 data = .ldkey data := rfl
@[simp] theorem decodeOp_enc (data : Word) : decodeOp 0b10#2 data = .enc data := rfl
@[simp] theorem decodeOp_dec (data : Word) : decodeOp 0b11#2 data = .dec data := rfl

/-- The command on the command ports (rules R61, R63). -/
theorem decodeCmd_portWord (p : PortIn) : decodeCmd (portWord p) = decodeOp p.cmdOp p.cmdData := by
  simp only [decodeCmd, portWord, opField_append, dataField_append]

end Sys2Proof
end

