-- ==== Sys2Proof/Laws/State.lean ====
section
/-! SUPPORT. One lemma per field per update of the state, each true by rfl, so that no later proof unfolds an update. -/

namespace Sys2Proof.Machine

variable (s : State) (i : Nat) (v d k : Word) (st : BitVec 2)

@[simp] theorem writeRK_RK : (s.writeRK i v).RK = s.RK.setIfInBounds i v := rfl
@[simp] theorem writeRK_S : (s.writeRK i v).S = s.S := rfl
@[simp] theorem writeRK_keyValid : (s.writeRK i v).keyValid = s.keyValid := rfl
@[simp] theorem writeRK_phase : (s.writeRK i v).phase = s.phase := rfl
@[simp] theorem writeRK_rnd : (s.writeRK i v).rnd = s.rnd := rfl
@[simp] theorem writeRK_rstat : (s.writeRK i v).rstat = s.rstat := rfl
@[simp] theorem writeRK_pins : (s.writeRK i v).pins = s.pins := rfl
@[simp] theorem writeRK_edges : (s.writeRK i v).edges = s.edges := rfl

@[simp] theorem respond_RK : (respond st d s).RK = s.RK := rfl
@[simp] theorem respond_S : (respond st d s).S = d := rfl
@[simp] theorem respond_keyValid : (respond st d s).keyValid = s.keyValid := rfl
@[simp] theorem respond_phase : (respond st d s).phase = .resp := rfl
@[simp] theorem respond_rnd : (respond st d s).rnd = 0#4 := rfl
@[simp] theorem respond_rstat : (respond st d s).rstat = st := rfl
@[simp] theorem respond_pins : (respond st d s).pins = s.pins := rfl
@[simp] theorem respond_edges : (respond st d s).edges = s.edges := rfl

@[simp] theorem raiseError_RK : (raiseError st s).RK = s.RK := rfl
@[simp] theorem raiseError_S : (raiseError st s).S = 0#128 := rfl
@[simp] theorem raiseError_keyValid : (raiseError st s).keyValid = s.keyValid := rfl
@[simp] theorem raiseError_phase : (raiseError st s).phase = .resp := rfl
@[simp] theorem raiseError_rnd : (raiseError st s).rnd = 0#4 := rfl
@[simp] theorem raiseError_rstat : (raiseError st s).rstat = st := rfl
@[simp] theorem raiseError_pins : (raiseError st s).pins = s.pins := rfl
@[simp] theorem raiseError_edges : (raiseError st s).edges = s.edges := rfl

@[simp] theorem takeResponse_RK : (takeResponse s).RK = s.RK := rfl
@[simp] theorem takeResponse_S : (takeResponse s).S = 0#128 := rfl
@[simp] theorem takeResponse_keyValid : (takeResponse s).keyValid = s.keyValid := rfl
@[simp] theorem takeResponse_phase : (takeResponse s).phase = .idle := rfl
@[simp] theorem takeResponse_rnd : (takeResponse s).rnd = s.rnd := rfl
@[simp] theorem takeResponse_rstat : (takeResponse s).rstat = 0#2 := rfl
@[simp] theorem takeResponse_pins : (takeResponse s).pins = s.pins := rfl
@[simp] theorem takeResponse_edges : (takeResponse s).edges = s.edges := rfl

@[simp] theorem resetStep_RK : (resetStep s).RK = Vector.replicate 11 0#128 := rfl
@[simp] theorem resetStep_S : (resetStep s).S = 0#128 := rfl
@[simp] theorem resetStep_keyValid : (resetStep s).keyValid = false := rfl
@[simp] theorem resetStep_phase : (resetStep s).phase = .idle := rfl
@[simp] theorem resetStep_rnd : (resetStep s).rnd = 0#4 := rfl
@[simp] theorem resetStep_rstat : (resetStep s).rstat = 0#2 := rfl
@[simp] theorem resetStep_pins : (resetStep s).pins = s.pins := rfl
@[simp] theorem resetStep_edges : (resetStep s).edges = s.edges := rfl

@[simp] theorem afterEdge_RK : s.afterEdge.RK = s.RK := rfl
@[simp] theorem afterEdge_S : s.afterEdge.S = s.S := rfl
@[simp] theorem afterEdge_keyValid : s.afterEdge.keyValid = s.keyValid := rfl
@[simp] theorem afterEdge_phase : s.afterEdge.phase = s.phase := rfl
@[simp] theorem afterEdge_rnd : s.afterEdge.rnd = s.rnd := rfl
@[simp] theorem afterEdge_rstat : s.afterEdge.rstat = s.rstat := rfl
@[simp] theorem afterEdge_pins : s.afterEdge.pins = s.pins.tail := rfl
@[simp] theorem afterEdge_edges : s.afterEdge.edges = s.edges + 1 := rfl

@[simp] theorem acceptLdkey_RK : (acceptLdkey k s).RK = s.RK.setIfInBounds 0 k := rfl
@[simp] theorem acceptLdkey_S : (acceptLdkey k s).S = 0#128 := rfl
@[simp] theorem acceptLdkey_keyValid : (acceptLdkey k s).keyValid = false := rfl
@[simp] theorem acceptLdkey_phase : (acceptLdkey k s).phase = .kexp := rfl
@[simp] theorem acceptLdkey_rnd : (acceptLdkey k s).rnd = 1#4 := rfl
@[simp] theorem acceptLdkey_rstat : (acceptLdkey k s).rstat = s.rstat := rfl
@[simp] theorem acceptLdkey_pins : (acceptLdkey k s).pins = s.pins := rfl
@[simp] theorem acceptLdkey_edges : (acceptLdkey k s).edges = s.edges := rfl

/-- Outside the first index, writing a round key leaves the other round keys. -/
theorem writeRK_getElem_ne {j : Nat} (hj : j < 11) (h : i ≠ j) : (s.writeRK i v).RK[j] = s.RK[j] := by
  simp [h]

/-- Writing an existing round key is read back. -/
theorem writeRK_getElem_self (hi : i < 11) : (s.writeRK i v).RK[i] = v := by
  simp

/-- `RK[i]` exists for i = 0..10 (rule R21). -/
theorem readRK_of_lt (hi : i < 11) : s.readRK i = some s.RK[i] := by
  simp [State.readRK, hi]

/-- `RK[i]` does not exist for i > 10 (rule R21). -/
theorem readRK_of_ge (hi : 11 ≤ i) : s.readRK i = none := by
  simp [State.readRK, hi]

end Sys2Proof.Machine
end

