-- ==== Sys2Proof/Laws/Engine.lean ====
section
/-! SUPPORT. What each shared operation of the step machine can do, said once: the micro-steps of KEXP, ENCR and DECR, an edge without
a command, and presenting a command. -/

namespace Sys2Proof.Machine

variable {s t : State}

/-- Everything an expansion step can do when it goes on (rule R84). -/
theorem expansionStep_cases (h : expansionStep s = .next t) :
    ∃ i, ∃ hi : i < 10, s.rnd.toNat = i + 1 ∧
      ((i + 1 ≠ 10 ∧ t = { s.writeRK (i + 1) (kstep s.RK[i] (i + 1)) with rnd := s.rnd + 1#4 }) ∨
        (i + 1 = 10 ∧
          t = { s.writeRK (i + 1) (kstep s.RK[i] (i + 1)) with
            keyValid := true, rnd := 0#4, rstat := statusOk, phase := .resp })) := by
  unfold expansionStep at h
  split at h
  · cases h
  · rename_i i hi
    by_cases hlt : i + 1 < 11
    · rw [readRK_of_lt s i (by omega), readRK_of_lt s (i + 1) hlt] at h
      refine ⟨i, by omega, hi, ?_⟩
      by_cases h10 : i + 1 = 10
      · right
        simp only [if_pos h10] at h
        exact ⟨h10, (Host.Outcome.next.inj h).symm⟩
      · left
        simp only [if_neg h10] at h
        exact ⟨h10, (Host.Outcome.next.inj h).symm⟩
    · rw [readRK_of_ge s (i + 1) (by omega)] at h
      split at h
      · simp_all
      · cases h

/-- An expansion step with `rnd` in 1..9. -/
theorem expansionStep_mid {i : Nat} (hr : s.rnd.toNat = i + 1) (hi : i + 1 < 10) :
    expansionStep s = .next { s.writeRK (i + 1) (kstep s.RK[i] (i + 1)) with rnd := s.rnd + 1#4 } := by
  unfold expansionStep
  rw [hr]
  simp only [readRK_of_lt s i (by omega), readRK_of_lt s (i + 1) (by omega)]
  rw [if_neg (show i + 1 ≠ 10 by omega)]

/-- The expansion step with `rnd = 10`. -/
theorem expansionStep_last (hr : s.rnd.toNat = 10) :
    expansionStep s = .next { s.writeRK 10 (kstep s.RK[9] 10) with
      keyValid := true, rnd := 0#4, rstat := statusOk, phase := .resp } := by
  unfold expansionStep
  rw [hr]
  simp only [readRK_of_lt s 9 (by omega), readRK_of_lt s (9 + 1) (by omega)]
  rfl

/-- Everything a round step of ENCR can do when it goes on (rule R120). -/
theorem encRoundStep_cases (h : encRoundStep s = .next t) :
    ∃ hr : s.rnd.toNat < 11,
      ((s.rnd.toNat ≠ 10 ∧ t = { s with S := ernd s.S s.RK[s.rnd.toNat], rnd := s.rnd + 1#4 }) ∨
        (s.rnd.toNat = 10 ∧
          t = { s with S := ernd s.S s.RK[s.rnd.toNat], rnd := 0#4, rstat := statusOk, phase := .resp })) := by
  unfold encRoundStep at h
  by_cases hr : s.rnd.toNat < 11
  · rw [readRK_of_lt s _ hr] at h
    refine ⟨hr, ?_⟩
    by_cases h10 : s.rnd.toNat = 10
    · right
      simp only [if_pos h10] at h
      exact ⟨h10, (Host.Outcome.next.inj h).symm⟩
    · left
      simp only [if_neg h10] at h
      exact ⟨h10, (Host.Outcome.next.inj h).symm⟩
  · rw [readRK_of_ge s _ (by omega)] at h
    cases h

/-- A round step of ENCR with an existing round key, not the last. -/
theorem encRoundStep_mid (hr : s.rnd.toNat < 10) :
    encRoundStep s = .next { s with S := ernd s.S s.RK[s.rnd.toNat], rnd := s.rnd + 1#4 } := by
  unfold encRoundStep
  rw [readRK_of_lt s _ (by omega)]
  simp only
  rw [if_neg (show s.rnd.toNat ≠ 10 by omega)]

/-- The last round step of ENCR. -/
theorem encRoundStep_last (hr : s.rnd.toNat = 10) :
    encRoundStep s = .next { s with S := ernd s.S s.RK[10], rnd := 0#4, rstat := statusOk, phase := .resp } := by
  unfold encRoundStep
  rw [hr, readRK_of_lt s 10 (by omega)]
  rfl

/-- Everything a round step of DECR can do when it goes on (rule R121). -/
theorem decRoundStep_cases (h : decRoundStep s = .next t) :
    ∃ hr : s.rnd.toNat < 11,
      ((s.rnd.toNat ≠ 0 ∧ t = { s with S := drnd s.S s.RK[s.rnd.toNat], rnd := s.rnd - 1#4 }) ∨
        (s.rnd.toNat = 0 ∧ t = { s with S := ark s.S s.RK[s.rnd.toNat], rstat := statusOk, phase := .resp })) := by
  unfold decRoundStep at h
  by_cases hr : s.rnd.toNat < 11
  · rw [readRK_of_lt s _ hr] at h
    refine ⟨hr, ?_⟩
    by_cases h0 : s.rnd.toNat = 0
    · right
      simp only [if_pos h0] at h
      exact ⟨h0, (Host.Outcome.next.inj h).symm⟩
    · left
      simp only [if_neg h0] at h
      exact ⟨h0, (Host.Outcome.next.inj h).symm⟩
  · rw [readRK_of_ge s _ (by omega)] at h
    cases h

/-- A round step of DECR with `rnd` in 1..10. -/
theorem decRoundStep_mid (h0 : s.rnd.toNat ≠ 0) (hr : s.rnd.toNat < 11) :
    decRoundStep s = .next { s with S := drnd s.S s.RK[s.rnd.toNat], rnd := s.rnd - 1#4 } := by
  unfold decRoundStep
  rw [readRK_of_lt s _ hr]
  simp only
  rw [if_neg h0]

/-- The final step of DECR. -/
theorem decRoundStep_last (h0 : s.rnd.toNat = 0) :
    decRoundStep s = .next { s with S := ark s.S s.RK[0], rstat := statusOk, phase := .resp } := by
  unfold decRoundStep
  rw [h0, readRK_of_lt s 0 (by omega)]
  rfl

/-- An edge at which no command is accepted touches neither the listed inputs nor the edge count. -/
theorem engineEdge_inputs (h : engineEdge s = .next t) : t.pins = s.pins ∧ t.edges = s.edges := by
  unfold engineEdge at h
  split at h
  · cases h; exact ⟨rfl, rfl⟩
  · obtain ⟨i, hi, -, ⟨-, rfl⟩ | ⟨-, rfl⟩⟩ := expansionStep_cases h <;> exact ⟨rfl, rfl⟩
  · obtain ⟨hr, ⟨-, rfl⟩ | ⟨-, rfl⟩⟩ := encRoundStep_cases h <;> exact ⟨rfl, rfl⟩
  · obtain ⟨hr, ⟨-, rfl⟩ | ⟨-, rfl⟩⟩ := decRoundStep_cases h <;> exact ⟨rfl, rfl⟩
  · split at h <;> cases h <;> exact ⟨rfl, rfl⟩

/-- An edge at which no command is accepted is never refused. -/
theorem engineEdge_ne_refused (r : Refusal) : engineEdge s ≠ .refused r := by
  unfold engineEdge
  split
  · simp
  · unfold expansionStep
    repeat' split
    all_goals simp
  · unfold encRoundStep
    repeat' split
    all_goals simp
  · unfold decRoundStep
    repeat' split
    all_goals simp
  · split <;> simp

/-- In IDLE a presented command is accepted. -/
theorem presentCommand_idle (accept : State → State) (h : s.phase = .idle) :
    presentCommand accept s = .next (accept s) := by
  simp [presentCommand, State.cmdReady, h]

/-- Outside IDLE a presented command waits. -/
theorem presentCommand_busy (accept : State → State) (h : s.phase ≠ .idle) :
    presentCommand accept s = engineEdge s := by
  simp [presentCommand, State.cmdReady, h]

/-- The accept step of each command (rules R84, R120, R121, R153). -/
def accept : Instr → State → State
  | .rsvd d => acceptRsvd d
  | .ldkey k => acceptLdkey k
  | .enc b => acceptEnc b
  | .dec c => acceptDec c

/-- In IDLE every command is accepted. -/
theorem exec_idle (i : Instr) (h : s.phase = .idle) : exec i s = .next (accept i s) := by
  cases i <;> exact presentCommand_idle _ h

/-- Outside IDLE every command waits, and the engine takes the step of its phase. -/
theorem exec_busy (i : Instr) (h : s.phase ≠ .idle) : exec i s = engineEdge s := by
  cases i <;> exact presentCommand_busy _ h

/-- Accepting a command touches neither the listed inputs nor the edge count. -/
theorem accept_inputs (i : Instr) (s : State) : (accept i s).pins = s.pins ∧ (accept i s).edges = s.edges := by
  cases i with
  | rsvd d => exact ⟨rfl, rfl⟩
  | ldkey k => exact ⟨rfl, rfl⟩
  | enc b => cases h : s.keyValid <;> simp [accept, acceptEnc, h]
  | dec c => cases h : s.keyValid <;> simp [accept, acceptDec, h]

end Sys2Proof.Machine
end

