-- ==== Sys2Proof/Laws/Host.lean ====
section
/-! SUPPORT. What a host's procedures are built from: buffers as values, blocks of a message, and a procedure over blocks. -/

namespace Sys2Proof.Machine

/-- One byte more at the end of a buffer is one more least significant byte (rule R41). -/
theorem be128_append_singleton (b : List Byte) (x : Byte) : be128 (b ++ [x]) = (be128 b <<< 8) ||| x.setWidth 128 := by
  simp [be128, List.foldl_append]

/-- Where a bit of a buffer's value comes from (rule R41). -/
theorem getLsbD_be128 (b : List Byte) :
    ∀ j, j < 128 → ∀ h : j / 8 < b.length,
      (be128 b).getLsbD j = (b[b.length - 1 - j / 8]'(by omega)).getLsbD (j % 8) := by
  induction b using List.reverseRecOn with
  | nil => intro j _ h; simp at h
  | append_singleton b x ih =>
    intro j hj h
    rw [be128_append_singleton, BitVec.getLsbD_or, BitVec.getLsbD_shiftLeft, BitVec.getLsbD_setWidth]
    by_cases h8 : j < 8
    · simp [h8, hj, show j / 8 = 0 by omega, show j % 8 = j by omega]
    · have hlt : (j - 8) / 8 < b.length := by simp at h; omega
      rw [ih (j - 8) (by omega) hlt, BitVec.getLsbD_of_ge x j (by omega)]
      simp only [h8, hj, decide_true, decide_false, Bool.not_false, Bool.true_and, Bool.and_true, Bool.and_false, Bool.or_false,
        show (j - 8) % 8 = j % 8 by omega]
      congr 1
      rw [List.getElem_append_left (by simp at h ⊢; omega)]
      congr 1
      simp
      omega

/-- A value's buffer has 16 bytes (rule R42). -/
@[simp] theorem length_bytes16 (v : Word) : (bytes16 v).length = 16 := by simp [bytes16]

/-- Every block of a message has 16 bytes (rules R134, R136). -/
theorem length_of_mem_blocksOf {m b : List Byte} (h : b ∈ blocksOf m) : b.length = 16 := by
  simp only [blocksOf, List.mem_map, List.mem_range] at h
  obtain ⟨t, ht, rfl⟩ := h
  simp
  omega

/-- The first n blocks of a message are its first 16 n bytes (rules R134, R136). -/
theorem flatten_first_blocks (m : List Byte) (n : Nat) (h : n * 16 ≤ m.length) :
    ((List.range n).map fun t => (m.drop (16 * t)).take 16).flatten = m.take (16 * n) := by
  induction n with
  | zero => simp
  | succ n ih =>
    rw [List.range_succ, List.map_append, List.flatten_append, ih (by omega)]
    simp only [List.map_cons, List.map_nil, List.flatten_cons, List.flatten_nil, List.append_nil]
    rw [Nat.mul_succ, List.take_add]

/-- A block procedure that answers every block with one command and leaves the cipher instance, over a list of blocks. -/
theorem overBlocks_of_forall {blk : List Byte → Cipher → HostRun (List Byte)} {f : List Byte → List Byte}
    {g : List Byte → Instr} {c : Cipher} (bs : List (List Byte))
    (h : ∀ b ∈ bs, blk b c = { result := .ok (f b), cipher := c, issued := [g b] }) :
    overBlocks blk bs c = { result := .ok (bs.flatMap f), cipher := c, issued := bs.map g } := by
  induction bs with
  | nil => rfl
  | cons b bs ih =>
    have ih := ih (fun b' hb' => h b' (by simp [hb']))
    simp [overBlocks, h b (by simp), ih, Except.map]

end Sys2Proof.Machine
end

