-- ==== Sys2Proof/Laws/Lanes.lean ====
section
/-! SUPPORT. Lanes of a 128-bit value: what packing does bit by bit and lane by lane, when two values are equal lane by lane, and
what a rotation does to each bit. -/

namespace Sys2Proof.Machine

/-- The bits of a packed value: bit b belongs to lane `b / w`. -/
theorem getLsbD_packLanes {w : Nat} (f : Nat → BitVec w) (n : Nat) (hw : 0 < w) (b : Nat) (hb : b < 128) :
    (packLanes f n).getLsbD b = (decide (b < w * n) && (f (b / w)).getLsbD (b % w)) := by
  induction n with
  | zero => simp [packLanes]
  | succ n ih =>
    have hsucc : w * (n + 1) = w * n + w := Nat.mul_succ w n
    rw [packLanes, BitVec.getLsbD_or, ih, BitVec.getLsbD_shiftLeft, BitVec.getLsbD_setWidth]
    by_cases h1 : b < w * n
    · have h2 : b < w * (n + 1) := by omega
      simp [h1, h2]
    · by_cases h2 : b < w * (n + 1)
      · have hq : b / w = n := by
          apply Nat.div_eq_of_lt_le
          · rw [Nat.mul_comm]; omega
          · rw [Nat.mul_comm]; omega
        have hr : b % w = b - w * n := by
          have := Nat.div_add_mod b w
          rw [hq] at this
          omega
        have h3 : b - w * n < 128 := by omega
        simp [h1, h2, hq, hr, hb, h3]
      · have hge : w ≤ b - w * n := by omega
        simp [h1, h2, hb, BitVec.getLsbD_of_ge _ _ hge]

/-- Bit j of nibble i. -/
theorem getLsbD_nib (v : Word) (i j : Nat) : (nib v i).getLsbD j = (decide (j < 4) && v.getLsbD (4 * i + j)) := by
  simp [nib, BitVec.getLsbD_extractLsb']

/-- Bit j of the byte at position p. -/
theorem getLsbD_byteAt (v : Word) (p j : Nat) : (byteAt v p).getLsbD j = (decide (j < 8) && v.getLsbD (8 * p + j)) := by
  simp [byteAt, BitVec.getLsbD_extractLsb']

/-- Nibble i of 32 packed nibbles. -/
theorem nib_packLanes (f : Nat → Nibble) (i : Nat) (hi : i < 32) : nib (packLanes f 32) i = f i := by
  apply BitVec.eq_of_getLsbD_eq
  intro j hj
  rw [getLsbD_nib, getLsbD_packLanes f 32 (by decide) _ (by omega)]
  have h1 : (4 * i + j) / 4 = i := by omega
  have h2 : (4 * i + j) % 4 = j := by omega
  have h3 : 4 * i + j < 4 * 32 := by omega
  simp only [h1, h2, h3, hj, decide_true, Bool.true_and]

/-- Byte p of 16 packed bytes. -/
theorem byteAt_packLanes (f : Nat → Byte) (p : Nat) (hp : p < 16) : byteAt (packLanes f 16) p = f p := by
  apply BitVec.eq_of_getLsbD_eq
  intro j hj
  rw [getLsbD_byteAt, getLsbD_packLanes f 16 (by decide) _ (by omega)]
  have h1 : (8 * p + j) / 8 = p := by omega
  have h2 : (8 * p + j) % 8 = j := by omega
  have h3 : 8 * p + j < 8 * 16 := by omega
  simp only [h1, h2, h3, hj, decide_true, Bool.true_and]

/-- Two values with the same 32 nibbles are equal. -/
theorem eq_of_nib_eq {a b : Word} (h : ∀ i, i < 32 → nib a i = nib b i) : a = b := by
  apply BitVec.eq_of_getLsbD_eq
  intro j hj
  have := congrArg (fun x => x.getLsbD (j % 4)) (h (j / 4) (by omega))
  have h4 : j % 4 < 4 := Nat.mod_lt _ (by decide)
  have hd : 4 * (j / 4) + j % 4 = j := Nat.div_add_mod j 4
  simpa only [getLsbD_nib, h4, hd, decide_true, Bool.true_and] using this

/-- Two values with the same 16 bytes are equal. -/
theorem eq_of_byteAt_eq {a b : Word} (h : ∀ p, p < 16 → byteAt a p = byteAt b p) : a = b := by
  apply BitVec.eq_of_getLsbD_eq
  intro j hj
  have := congrArg (fun x => x.getLsbD (j % 8)) (h (j / 8) (by omega))
  have h8 : j % 8 < 8 := Nat.mod_lt _ (by decide)
  have hd : 8 * (j / 8) + j % 8 = j := Nat.div_add_mod j 8
  simpa only [getLsbD_byteAt, h8, hd, decide_true, Bool.true_and] using this

/-- A byte is its high nibble and its low nibble (rule R9: nibbles 2p+1 and 2p). -/
theorem byteAt_eq_nib_append (v : Word) (p : Nat) : byteAt v p = (nib v (2 * p + 1) ++ nib v (2 * p) : BitVec (4 + 4)) := by
  apply BitVec.eq_of_getLsbD_eq
  intro j hj
  rw [BitVec.getLsbD_append, getLsbD_byteAt, getLsbD_nib, getLsbD_nib]
  by_cases h : j < 4
  · have e : 4 * (2 * p) + j = 8 * p + j := by omega
    simp [h, e, show j < 8 by omega]
  · have e : 4 * (2 * p + 1) + (j - 4) = 8 * p + j := by omega
    simp [h, e, show j < 8 by omega, show j - 4 < 4 by omega]

/-- The byte at a position of an exclusive or. -/
theorem byteAt_xor (a b : Word) (p : Nat) : byteAt (a ^^^ b) p = byteAt a p ^^^ byteAt b p := by
  apply BitVec.eq_of_getLsbD_eq
  intro j hj
  simp only [getLsbD_byteAt, hj, BitVec.getLsbD_xor, decide_true, Bool.true_and]

/-- Where bit b of the result of `rotl128` comes from (rule R10). -/
theorem getLsbD_rotl128 (v : Word) (n b : Nat) (hn : n < 128) (hb : b < 128) :
    (rotl128 v n).getLsbD b = v.getLsbD ((b + (128 - n)) % 128) := by
  rw [rotl128, BitVec.getLsbD_or, BitVec.getLsbD_shiftLeft, BitVec.getLsbD_ushiftRight]
  by_cases h : b < n
  · have e : (b + (128 - n)) % 128 = 128 - n + b := by omega
    simp [h, e]
  · have e : (b + (128 - n)) % 128 = b - n := by omega
    simp [h, hb, e, BitVec.getLsbD_of_ge v (128 - n + b) (by omega)]

/-- Where bit b of the result of `rotl8` comes from (rule R10). -/
theorem getLsbD_rotl8 (v : Byte) (n b : Nat) (hn : n < 8) (hb : b < 8) :
    (rotl8 v n).getLsbD b = v.getLsbD ((b + (8 - n)) % 8) := by
  rw [rotl8, BitVec.getLsbD_or, BitVec.getLsbD_shiftLeft, BitVec.getLsbD_ushiftRight]
  by_cases h : b < n
  · have e : (b + (8 - n)) % 8 = 8 - n + b := by omega
    simp [h, e]
  · have e : (b + (8 - n)) % 8 = b - n := by omega
    simp [h, hb, e, BitVec.getLsbD_of_ge v (8 - n + b) (by omega)]

/-- Where bit b of the result of `rotr8` comes from (rule R10). -/
theorem getLsbD_rotr8 (v : Byte) (n b : Nat) (hn : n < 8) (hb : b < 8) :
    (rotr8 v n).getLsbD b = v.getLsbD ((b + n) % 8) := by
  rw [rotr8, BitVec.getLsbD_or, BitVec.getLsbD_shiftLeft, BitVec.getLsbD_ushiftRight]
  by_cases h : b + n < 8
  · have e : (b + n) % 8 = n + b := by omega
    simp [e, show b < 8 - n by omega]
  · have e : (b + n) % 8 = b - (8 - n) := by omega
    simp [hb, e, show ¬ b < 8 - n by omega, BitVec.getLsbD_of_ge v (n + b) (by omega)]

/-- Every amount of the shift pattern is below 8 (rule R100). -/
theorem pshift_lt (p : Nat) : pshift p < 8 := Nat.mod_lt _ (by decide)

/-- Rotating by nothing changes nothing (rule R10). -/
@[simp] theorem rotl128_zero (v : Word) : rotl128 v 0 = v := by
  apply BitVec.eq_of_getLsbD_eq
  intro j hj
  rw [getLsbD_rotl128 _ _ _ (by decide) hj]
  congr 1
  omega

/-- Rotating by nothing changes nothing (rule R10). -/
@[simp] theorem rotl8_zero (v : Byte) : rotl8 v 0 = v := by
  apply BitVec.eq_of_getLsbD_eq
  intro j hj
  rw [getLsbD_rotl8 _ _ _ (by decide) hj]
  congr 1
  omega

/-- Rotating by nothing changes nothing (rule R10). -/
@[simp] theorem rotr8_zero (v : Byte) : rotr8 v 0 = v := by
  apply BitVec.eq_of_getLsbD_eq
  intro j hj
  rw [getLsbD_rotr8 _ _ _ (by decide) hj]
  congr 1
  omega

/-- Two rotations in a row are one by the sum (rule R10). -/
theorem rotl128_rotl128 (v : Word) (m n : Nat) (hm : m < 128) (hn : n < 128) :
    rotl128 (rotl128 v m) n = rotl128 v ((m + n) % 128) := by
  apply BitVec.eq_of_getLsbD_eq
  intro b hb
  rw [getLsbD_rotl128 _ n b hn hb, getLsbD_rotl128 _ m _ hm (Nat.mod_lt _ (by decide)),
    getLsbD_rotl128 _ _ b (Nat.mod_lt _ (by decide)) hb]
  congr 1
  omega

/-- A rotation distributes over an exclusive or (rule R10). -/
theorem rotl128_xor (a b : Word) (n : Nat) (hn : n < 128) : rotl128 (a ^^^ b) n = rotl128 a n ^^^ rotl128 b n := by
  apply BitVec.eq_of_getLsbD_eq
  intro j hj
  rw [BitVec.getLsbD_xor, getLsbD_rotl128 _ n _ hn hj, getLsbD_rotl128 _ n _ hn hj, getLsbD_rotl128 _ n _ hn hj,
    BitVec.getLsbD_xor]

end Sys2Proof.Machine
end

