-- ==== Sys2Proof/Laws/PerInstr.lean ====
section
/-! SUPPORT. The family `OpcodeField` (spec/30_encoding.md rules R62, R63, R67, R68), one lemma per constructor of `Instr`. -/

namespace Sys2Proof.Laws.OpcodeField

/-- The command is well formed, its word carries its opcode and its operand in the two fields of rule R62, and no other command has
that word. -/
def Statement (i : Instr) : Prop :=
  i.wf = true ∧ opField (encode i) = i.opcode ∧ dataField (encode i) = i.data ∧ ∀ j : Instr, encode j = encode i → j = i

/-- Two commands with one word have one opcode and one operand. -/
theorem opcode_data_of_encode_eq {i j : Instr} (h : encode j = encode i) : j.opcode = i.opcode ∧ j.data = i.data := by
  have ho := congrArg opField h
  have hd := congrArg dataField h
  simp only [encode, opField_append, dataField_append] at ho hd
  exact ⟨ho, hd⟩

theorem rsvd (d : Word) : Statement (.rsvd d) := by
  refine ⟨rfl, opField_append (0b00#2) d, dataField_append (0b00#2) d, fun j h => ?_⟩
  obtain ⟨ho, hd⟩ := opcode_data_of_encode_eq h
  cases j <;> simp_all [Instr.opcode, Instr.data]

theorem ldkey (k : Word) : Statement (.ldkey k) := by
  refine ⟨rfl, opField_append (0b01#2) k, dataField_append (0b01#2) k, fun j h => ?_⟩
  obtain ⟨ho, hd⟩ := opcode_data_of_encode_eq h
  cases j <;> simp_all [Instr.opcode, Instr.data]

theorem enc (b : Word) : Statement (.enc b) := by
  refine ⟨rfl, opField_append (0b10#2) b, dataField_append (0b10#2) b, fun j h => ?_⟩
  obtain ⟨ho, hd⟩ := opcode_data_of_encode_eq h
  cases j <;> simp_all [Instr.opcode, Instr.data]

theorem dec (c : Word) : Statement (.dec c) := by
  refine ⟨rfl, opField_append (0b11#2) c, dataField_append (0b11#2) c, fun j h => ?_⟩
  obtain ⟨ho, hd⟩ := opcode_data_of_encode_eq h
  cases j <;> simp_all [Instr.opcode, Instr.data]

end Sys2Proof.Laws.OpcodeField
end

