-- ==== Sys2Proof/Laws/Step.lean ====
section
/-! SUPPORT. What one step can do, said once, and how steps compose into runs. -/

namespace Sys2Proof.Machine

variable {s t : State}

/-- With `rst = 1` the step is the reset step (rule R126 row 1). -/
theorem step_of_reset (h : s.ports.rst = true) : step s = .next (resetStep s).afterEdge := by
  simp [step, h, passEdge]

/-- In IDLE with a command presented, the step accepts it (rows 3 to 7). -/
theorem step_of_idle_presented {i : Instr} (hi : s.phase = .idle) (hp : s.presented = some i) :
    step s = .next (accept i s).afterEdge := by
  unfold State.presented at hp
  split at hp
  · rename_i h
    cases hp
    simp [step, h.1, h.2, exec_idle _ hi, passEdge]
  · cases hp

/-- In IDLE with no command presented and no reset, nothing but the edge passes (row 2). -/
theorem step_of_idle_quiet (hi : s.phase = .idle) (hr : s.ports.rst = false) (hv : s.ports.cmdValid = false) :
    step s = .next s.afterEdge := by
  simp [step, hr, hv, engineEdge, hi, passEdge]

/-- Outside IDLE without reset the step is the one of the phase, whatever the command ports carry (rows 8 to 12). -/
theorem step_of_busy (hb : s.phase ≠ .idle) (hr : s.ports.rst = false) : step s = passEdge (engineEdge s) := by
  by_cases hv : s.ports.cmdValid = true
  · simp [step, hr, hv, exec_busy _ hb]
  · simp [step, hr, hv]

/-- Everything a step can do when it goes on. -/
theorem step_cases (h : step s = .next t) :
    (s.ports.rst = true ∧ t = (resetStep s).afterEdge) ∨
    (s.ports.rst = false ∧ s.phase = .idle ∧ ∃ i, s.presented = some i ∧ t = (accept i s).afterEdge) ∨
    (s.ports.rst = false ∧ s.phase = .idle ∧ s.presented = none ∧ t = s.afterEdge) ∨
    (s.ports.rst = false ∧ s.phase ≠ .idle ∧ ∃ u, engineEdge s = .next u ∧ t = u.afterEdge) := by
  by_cases hr : s.ports.rst = true
  · left
    rw [step_of_reset hr] at h
    exact ⟨hr, (Host.Outcome.next.inj h).symm⟩
  · have hr : s.ports.rst = false := by simpa using hr
    right
    by_cases hi : s.phase = .idle
    · by_cases hv : s.ports.cmdValid = true
      · left
        have hp : s.presented = some (decodeCmd (portWord s.ports)) := by simp [State.presented, hr, hv]
        rw [step_of_idle_presented hi hp] at h
        exact ⟨hr, hi, _, hp, (Host.Outcome.next.inj h).symm⟩
      · have hv : s.ports.cmdValid = false := by simpa using hv
        right; left
        rw [step_of_idle_quiet hi hr hv] at h
        exact ⟨hr, hi, by simp [State.presented, hv], (Host.Outcome.next.inj h).symm⟩
    · right; right
      rw [step_of_busy hi hr] at h
      refine ⟨hr, hi, ?_⟩
      cases he : engineEdge s with
      | next u => rw [he] at h; exact ⟨u, rfl, (Host.Outcome.next.inj h).symm⟩
      | fault r => rw [he] at h; cases h
      | refused r => rw [he] at h; cases h

/-- The inputs of an edge depend only on what is listed and on the edge count. -/
theorem portsAt_congr (hp : s.pins = t.pins) (he : s.edges = t.edges) (k : Nat) : s.portsAt k = t.portsAt k := by
  simp [State.portsAt, hp, he]

/-- After an edge the inputs of the following edges come one earlier. -/
@[simp] theorem portsAt_afterEdge (s : State) (k : Nat) : s.afterEdge.portsAt k = s.portsAt (k + 1) := by
  simp [State.portsAt, Nat.add_assoc, Nat.add_comm 1 k]

/-- A step passes exactly one edge. -/
theorem step_inputs (h : step s = .next t) : t.pins = s.pins.tail ∧ t.edges = s.edges + 1 := by
  obtain ⟨-, rfl⟩ | ⟨-, -, i, -, rfl⟩ | ⟨-, -, -, rfl⟩ | ⟨-, -, u, hu, rfl⟩ := step_cases h
  · exact ⟨rfl, rfl⟩
  · simp [accept_inputs i s]
  · exact ⟨rfl, rfl⟩
  · simp [engineEdge_inputs hu]

/-- After a step the inputs of the following edges come one earlier. -/
theorem step_portsAt (h : step s = .next t) (k : Nat) : t.portsAt k = s.portsAt (k + 1) := by
  obtain ⟨hp, he⟩ := step_inputs h
  rw [← portsAt_afterEdge]
  exact portsAt_congr hp he k

@[simp] theorem run_zero (s : State) : Sys2Proof.core.run 0 s = .next s := rfl

/-- A run of n + 1 steps whose first goes on. -/
theorem run_succ_of_step {n : Nat} (h : step s = .next t) : Sys2Proof.core.run (n + 1) s = Sys2Proof.core.run n t := by
  have e := Host.Core.run.eq_2 Sys2Proof.core s n
  have h' : Sys2Proof.core.step s = .next t := h
  rw [h'] at e
  exact e

/-- A run of n + 1 steps that goes on began with a step that went on. -/
theorem run_succ_cases {n : Nat} (h : Sys2Proof.core.run (n + 1) s = .next t) :
    ∃ u, step s = .next u ∧ Sys2Proof.core.run n u = .next t := by
  have e := (Host.Core.run.eq_2 Sys2Proof.core s n).symm.trans h
  cases hs : step s with
  | next u => exact ⟨u, rfl, (run_succ_of_step hs).symm.trans h⟩
  | fault r =>
    have hs' : Sys2Proof.core.step s = .fault r := hs
    rw [hs'] at e
    cases e
  | refused r =>
    have hs' : Sys2Proof.core.step s = .refused r := hs
    rw [hs'] at e
    cases e

/-- Runs compose. -/
theorem run_add {m n : Nat} (h : Sys2Proof.core.run m s = .next t) :
    Sys2Proof.core.run (m + n) s = Sys2Proof.core.run n t := by
  induction m generalizing s with
  | zero => cases h; rw [Nat.zero_add]
  | succ m ih =>
    obtain ⟨u, hu, hr⟩ := run_succ_cases h
    rw [Nat.add_right_comm, run_succ_of_step hu]
    exact ih hr

/-- A run of n steps and one step more. -/
theorem run_snoc {n : Nat} {u : State} (h : Sys2Proof.core.run n s = .next t) (hu : step t = .next u) :
    Sys2Proof.core.run (n + 1) s = .next u := by
  rw [run_add h, run_succ_of_step hu, run_zero]

/-- An invariant that every step keeps holds along every run. -/
theorem run_invariant {P : State → Prop} (keep : ∀ s t, P s → step s = .next t → P t) {n : Nat} (hs : P s)
    (h : Sys2Proof.core.run n s = .next t) : P t := by
  induction n generalizing s with
  | zero => cases h; exact hs
  | succ n ih =>
    obtain ⟨u, hu, hr⟩ := run_succ_cases h
    exact ih (keep s u hs hu) hr

/-- A run passes one edge a step. -/
theorem run_inputs {n : Nat} (h : Sys2Proof.core.run n s = .next t) : t.pins = s.pins.drop n ∧ t.edges = s.edges + n := by
  induction n generalizing s with
  | zero => cases h; exact ⟨rfl, rfl⟩
  | succ n ih =>
    obtain ⟨u, hu, hr⟩ := run_succ_cases h
    obtain ⟨hp, he⟩ := ih hr
    obtain ⟨hp', he'⟩ := step_inputs hu
    refine ⟨?_, by omega⟩
    rw [hp, hp', List.drop_tail]

/-- After a run the inputs of the following edges come n earlier. -/
theorem run_portsAt {n : Nat} (h : Sys2Proof.core.run n s = .next t) (k : Nat) : t.portsAt k = s.portsAt (n + k) := by
  obtain ⟨hp, he⟩ := run_inputs h
  simp [State.portsAt, hp, he, List.getElem?_drop, Nat.add_assoc]

/-- A presented command is presented without reset. -/
theorem rst_of_presented {i : Instr} (h : s.presented = some i) : s.ports.rst = false := by
  unfold State.presented at h
  split at h
  · rename_i h'
    exact h'.1
  · cases h

/-- The commands accepted over one step and then n more. -/
theorem acceptedIn_succ {n : Nat} (h : step s = .next t) : acceptedIn (n + 1) s = s.accepted.toList ++ acceptedIn n t := by
  rw [acceptedIn, h]

/-- The responses taken over one step and then n more. -/
theorem takenIn_succ {n : Nat} (h : step s = .next t) : takenIn (n + 1) s = s.taken.toList ++ takenIn n t := by
  rw [takenIn, h]

end Sys2Proof.Machine
end

