-- ==== Sys2Proof/Tests/Slice0.lean ====
section
/-! SUPPORT. Tests and witnesses.  Expected values come from the spec's vectors (spec/95_test_vectors.md, named in each comment) and
rules.  A theorem `witness_<Obligation>` shows concrete states and operands that meet the hypotheses of that obligation's clauses. -/

namespace Sys2Proof.Tests

open Sys2Proof Sys2Proof.Machine

/-- The state an outcome goes on to. -/
def after? : Host.Outcome State Fault Refusal → Option State
  | .next s => some s
  | .fault _ => none
  | .refused _ => none

/-- An edge at which the host does nothing. -/
def quiet : PortIn := { rst := false, cmdValid := false, cmdOp := 0#2, cmdData := 0#128, rspReady := false }

/-- An edge at which the host takes a response. -/
def taking : PortIn := { quiet with rspReady := true }

/-- An edge with `rst = 1` at which everything else is asserted too. -/
def resetting : PortIn := { rst := true, cmdValid := true, cmdOp := 1#2, cmdData := 1#128, rspReady := true }

/-- An edge at which a command is presented. -/
def presenting (i : Instr) : PortIn := { quiet with cmdValid := true, cmdOp := i.opcode, cmdData := i.data }

/-- The engine after reset, with the port values of the coming edges. -/
def idle (pins : List PortIn) : State := { State.reset with pins := pins }

/-- The engine with the schedule of a key loaded. -/
def keyed (k : Word) (pins : List PortIn) : State := { idle pins with RK := expand k, keyValid := true }

/-- The engine in the middle of something, with the schedule of the all-zero key. -/
def busy (phase : Phase) (rnd : BitVec 4) (keyValid : Bool) (S : Word) (pins : List PortIn) : State :=
  { keyed 0#128 pins with phase := phase, rnd := rnd, keyValid := keyValid, S := S }

abbrev kSeq : Word := 0x000102030405060708090A0B0C0D0E0F#128
abbrev kTest : Word := 0x546573744B6579313233343536373839#128
abbrev plain : Word := 0x00112233445566778899AABBCCDDEEFF#128
abbrev cipherText : Word := 0x39A57FC2B3E581411C7A7AE096EBCE12#128

/-! ### Well-formedness and decoding -/

/-- Rule R69: a number with bit 130 is no command word, the largest 130-bit number is one. -/
theorem test_wide_word_refused :
    cmdWordFits (2 ^ 130) = false ∧ cmdWordFits (2 ^ 130 - 1) = true ∧ decodeWord (2 ^ 130) = .error .widerThanCommandWord ∧
      decodeTableWord 136 (2 ^ 130) = none := by decide

/-- Rule R131: keys of 0, 15 and 17 bytes are refused. -/
theorem test_key_length_refused :
    keyLengthOk [] = false ∧ keyLengthOk (List.replicate 15 0x41#8) = false ∧ keyLengthOk (List.replicate 17 0x41#8) = false ∧
      keyLengthOk (List.replicate 16 0x41#8) = true := by decide

/-- Rule R132: blocks of 0, 15 and 17 bytes are refused. -/
theorem test_block_length_refused :
    blockLengthOk [] = false ∧ blockLengthOk (List.replicate 15 0x41#8) = false ∧
      blockLengthOk (List.replicate 17 0x41#8) = false ∧ blockLengthOk (List.replicate 16 0x41#8) = true := by decide

/-- Rule R135, vector SC5: ciphertexts of 0, 1, 15, 17 and 31 bytes are refused. -/
theorem test_ciphertext_length_refused :
    [0, 1, 15, 17, 31].all (fun n => !ciphertextLengthOk (List.replicate n 0#8)) = true ∧
      ciphertextLengthOk (List.replicate 32 0#8) = true := by decide

/-- Rules R67, R68: every command is well formed, at the smallest and the largest operand. -/
theorem test_every_command_well_formed :
    [Instr.rsvd 0#128, .ldkey 0#128, .enc 0#128, .dec 0#128, .rsvd (-1#128), .ldkey (-1#128), .enc (-1#128), .dec (-1#128)].all
      Instr.wf = true := by decide

/-- Rule R62, the word `1000102030405060708090A0B0C0D0E0F` of 95_test_vectors.md (P1), bit by bit. -/
theorem test_decode_ldkey_word :
    decodeCmd 0b0100000000000000010000001000000011000001000000010100000110000001110000100000001001000010100000101100001100000011010000111000001111#130 =
      .ldkey 0x000102030405060708090A0B0C0D0E0F#128 := by decide

/-- Rule R62, the word `200112233445566778899AABBCCDDEEFF` of 95_test_vectors.md (P1), bit by bit. -/
theorem test_decode_enc_word :
    decodeCmd 0b1000000000000100010010001000110011010001000101010101100110011101111000100010011001101010101011101111001100110111011110111011111111#130 =
      .enc 0x00112233445566778899AABBCCDDEEFF#128 := by decide

/-- Rule R62, the word `339A57FC2B3E581411C7A7AE096EBCE12` of 95_test_vectors.md (P1), bit by bit. -/
theorem test_decode_dec_word :
    decodeCmd 0b1100111001101001010111111111000010101100111110010110000001010000010001110001111010011110101110000010010110111010111100111000010010#130 =
      .dec 0x39A57FC2B3E581411C7A7AE096EBCE12#128 := by decide

/-- Rule R62, the word `00123456789ABCDEF0123456789ABCDEF` of 95_test_vectors.md (P2), bit by bit. -/
theorem test_decode_rsvd_word :
    decodeCmd 0b0000000001001000110100010101100111100010011010101111001101111011110000000100100011010001010110011110001001101010111100110111101111#130 =
      .rsvd 0x0123456789ABCDEF0123456789ABCDEF#128 := by decide

/-! ### The commands -/

/-- P5 edge 2: `LDKEY` accepted. -/
theorem test_ldkey_accept :
    (after? (step (idle [presenting (.ldkey kSeq)]))).map (fun t => (t.phase, t.rnd, t.keyValid, t.RK[0], t.S)) =
      some (.kexp, 1#4, false, kSeq, 0#128) := by decide

/-- P5 edge 12: the last expansion step, from the ninth round key of KS2 to the tenth, while an `ENC` waits. -/
theorem test_ldkey_last_step :
    (after? (exec (.enc plain) { idle [] with
      RK := State.reset.RK.set 9 0xC8E0002140708060C8E15122417D80A1#128, phase := .kexp, rnd := 10#4 })).map
        (fun t => (t.phase, t.rnd, t.keyValid, t.RK[10], t.rspValid)) =
      some (.resp, 0#4, true, 0x0A04280E100C191C2A24482FB014391C#128, true) := by decide

/-- P5 edge 14 and vector EV1: `ENC` accepted with a key, and without one. -/
theorem test_enc_accept :
    (after? (step (keyed kSeq [presenting (.enc plain)]))).map (fun t => (t.phase, t.rnd, t.S)) =
        some (.encr, 1#4, 0x00102030405060708090A0B0C0D0E0F0#128) ∧
      (after? (step (idle [presenting (.enc plain)]))).map (fun t => (t.response, t.keyValid)) =
        some ({ status := 0b01#2, data := 0#128 }, false) := by decide

/-- P5 edge 24: the last round of `ENC`, row 10 of trace BT1. -/
theorem test_enc_last_round :
    (after? (step { keyed kSeq [quiet] with
      phase := .encr, rnd := 10#4, S := 0x442B69007E6DE8173E4D2CA0E8AAA959#128 })).map (fun t => (t.phase, t.rnd, t.S)) =
      some (.resp, 0#4, cipherText) := by decide

/-- P5 edges 28, 29 and vector EV2: `DEC` accepted with a key, its first round, and `DEC` without a key. -/
theorem test_dec_accept_and_first_round :
    (after? (step (keyed kSeq [presenting (.dec cipherText)]))).map (fun t => (t.phase, t.rnd, t.S)) =
        some (.decr, 10#4, cipherText) ∧
      (after? (step { keyed kSeq [quiet] with phase := .decr, rnd := 10#4, S := cipherText })).map
        (fun t => (t.phase, t.rnd, t.S)) = some (.decr, 9#4, 0x442B69007E6DE8173E4D2CA0E8AAA959#128) ∧
      (after? (step (idle [presenting (.dec plain)]))).map State.response =
        some { status := 0b01#2, data := 0#128 } := by decide +kernel

/-- The last line of trace BT2: the final XOR with `RK[0]`. -/
theorem test_dec_final_xor :
    (after? (step { keyed kSeq [quiet] with
      phase := .decr, rnd := 0#4, S := 0x00102030405060708090A0B0C0D0E0F0#128 })).map State.response =
      some { status := 0b00#2, data := plain } := by decide

/-- Vector EV4: the reserved opcode without a key. -/
theorem test_rsvd_without_key :
    (after? (step (idle [presenting (.rsvd (-1#128))]))).map (fun t => (t.response, t.keyValid)) =
      some ({ status := 0b10#2, data := 0#128 }, false) := by decide

/-- Vector EV5: the reserved opcode with a key; the schedule stays. -/
theorem test_rsvd_with_key :
    (after? (step (keyed kSeq [presenting (.rsvd (-1#128))]))).map (fun t => (t.response, t.keyValid, t.RK[10])) =
      some ({ status := 0b10#2, data := 0#128 }, true, 0x0A04280E100C191C2A24482FB014391C#128) := by decide

/-- A word placed by `withFetchWord` is the first command after reset (command word of KS6). -/
theorem test_withFetchWord_presents :
    (after? (step (State.reset.withFetchWord 136 0x1446976796172616E6A616E5361686F6F))).map (fun t => (t.phase, t.RK[0])) =
      some (.kexp, 0x446976796172616E6A616E5361686F6F#128) := by decide

/-- P5 edges 25, 27 and 31: a response waits, is taken, and a reset cuts a `DEC` short. -/
theorem test_wait_take_reset :
    (after? (step (busy .resp 0#4 true cipherText [quiet]))).map State.rspData = some cipherText ∧
      (after? (step (busy .resp 0#4 true cipherText [taking]))).map (fun t => (t.phase, t.S, t.rspData)) =
        some (.idle, 0#128, 0#128) ∧
      (after? (step (busy .decr 8#4 true cipherText [resetting]))).map (fun t => (t.phase, t.rnd, t.keyValid, t.RK[0], t.S)) =
        some (.idle, 0#4, false, 0#128, 0#128) := by decide

/-! ### The functions -/

/-- Vectors KT3, KT7, KT8. -/
theorem test_kstep :
    kstep (-1#128) 1 = 0xFEFFFFFFFFFFFFFFFFFFFFFFFFFFFFFF#128 ∧
      kstep 0x00040000000000000000000000000000#128 1 = 0x81000000000000000000000000000000#128 ∧
      kstep 0x00000800000000000000000000000000#128 1 = 0#128 := by decide

/-- Vectors KS6, KS7: round keys of two text keys. -/
theorem test_expand :
    (expand 0x446976796172616E6A616E5361686F6F#128)[10] = 0x1BA5F9E785D184B9A385D94E0581BC9D#128 ∧
      (expand kTest)[9] = 0x0E2A8CAF6E996C6F2E26166586BAC7E7#128 := by decide

/-- Vectors SB3 (inverse column), SB5, SB6. -/
theorem test_sub :
    invSub 0x0123456789ABCDEFFEDCBA9876543210#128 = 0x5EF8C12DB463079AA970364BD21C8FE5#128 ∧
      sub 1#128 = 0xCCCCCCCCCCCCCCCCCCCCCCCCCCCCCCC5#128 ∧
      sub 0x80000000000000000000000000000000#128 = 0x3CCCCCCCCCCCCCCCCCCCCCCCCCCCCCCC#128 := by decide

/-- Vectors PM3, PM4, PM6. -/
theorem test_perm :
    perm 0x0123456789ABCDEFFEDCBA9876543210#128 = 0x208CA27613EA6EEFDF735D89EC159110#128 ∧
      invPerm kSeq = 0x004004300214C007404214B00634C10F#128 ∧
      perm 0x80000000000000000000000000000000#128 = 0x10000000000000000000000000000000#128 := by decide

/-- Vectors RD3 (inverse column), RD4. -/
theorem test_rounds :
    drnd 0x00102030405060708090A0B0C0D0E0F0#128 0x21406080A0C0E10121416181A1C1E000#128 =
        0x54ECB553D5CF85DE57DCB8E835CC55A5#128 ∧
      ernd (-1#128) (-1#128) = 0xBB77EEDDBB77EEDDBB77EEDDBB77EEDD#128 := by decide

/-- Vectors BV3, BV5: whole blocks in both directions. -/
theorem test_blocks :
    encryptBlock (expand (-1#128)) 0#128 = 0x97DDDF72114CFED0B2DDA7D634B9B690#128 ∧
      decryptBlock (expand 0x446976796172616E6A616E5361686F6F#128) 0x48656C6C6F2C20576F726C6421205468#128 =
        0x58F324729B28D0BFA439368D1CC02907#128 := by decide +kernel

/-! ### The host -/

/-- Vector MC1: a 16-byte message, two blocks. -/
theorem test_encMsg_two_blocks :
    (encMsg (bytes16 0x303132333435363738393A3B3C3D3E3F#128) { RK := expand kTest, keyValid := true }).result =
      .ok (bytes16 0x35EFBB9C90A85FF612C144D72D827A28#128 ++ bytes16 0xE98CAB02C9B48B618C45E2CD85CF20DE#128) := by
  decide +kernel

/-- Vector TP4: sixteen bytes removed unchecked. -/
theorem test_decMsg_unchecked_padding :
    (decMsg (bytes16 0xE3311527D907653D8010340C2A5C53DE#128) { RK := expand kTest, keyValid := true }).result = .ok [] := by
  decide +kernel

/-- Vector WK1: a wrong key noticed by accident. -/
theorem test_decMsg_wrong_key :
    (decMsg (bytes16 0x97205AC354D97DC3DA5BF49B9EED8085#128)
      { RK := expand 0x4B657931323334353637383930313234#128, keyValid := true }).result = .error .malformedPadding := by
  decide +kernel

/-- Vectors PD5, PD7: padded lengths and amounts. -/
theorem test_pad :
    padLen (List.replicate 15 0x41#8) = 1 ∧ (pad (List.replicate 17 0x41#8)).length = 32 ∧
      (pad (List.replicate 17 0x41#8)).getLast? = some 0x0F#8 := by decide

/-- The example of rule R70: command line, command word and response. -/
theorem test_text_notation :
    commandLine (.enc plain) = "ENC 00112233445566778899AABBCCDDEEFF" ∧
      commandWordText (.enc plain) = "200112233445566778899AABBCCDDEEFF" ∧
      responseText { status := 0b00#2, data := cipherText } = some "OK 39A57FC2B3E581411C7A7AE096EBCE12" ∧
      responseText { status := 0b11#2, data := 0#128 } = none := by decide +kernel

/-- Lines 1 to 4 of program P2, and the text of two of them. -/
theorem test_program_P2_errors :
    lineRun (keyed kSeq []).cipher [.reset, .command (.enc 0#128), .command (.dec (-1#128)),
        .command (.rsvd 0x0123456789ABCDEF0123456789ABCDEF#128)] =
      [none, some { status := 0b01#2, data := 0#128 }, some { status := 0b01#2, data := 0#128 },
        some { status := 0b10#2, data := 0#128 }] ∧
      lineText .reset = "RESET" ∧ lineText (.command (.dec (-1#128))) = "DEC FFFFFFFFFFFFFFFFFFFFFFFFFFFFFFFF" := by
  decide +kernel

/-! ### Witnesses -/

/-- An outcome that goes on to a state with a checked property. -/
theorem exists_next {o : Host.Outcome State Fault Refusal} {p : State → Bool} (h : (after? o).any p = true) :
    ∃ t, o = .next t ∧ p t = true := by
  cases o with
  | next t => exact ⟨t, rfl, h⟩
  | fault r => cases h
  | refused r => cases h

/-- The edges of one whole command: presented, n busy edges, h edges at which the host waits, then taken. -/
def wholeCommand (i : Instr) (n h : Nat) : List PortIn := presenting i :: (List.replicate (n + h) quiet ++ [taking])

theorem witness_EncodeAndDecodeAgree :
    (Instr.rsvd 0#128).wf = true ∧ (Instr.ldkey (-1#128)).wf = true ∧ (Instr.enc 0#128).wf = true ∧
      (Instr.dec (-1#128)).wf = true := by decide

theorem witness_DecodeRejectsExactlyWiderNumbers :
    2 ^ 130 - 1 < 2 ^ 130 ∧ decodeWord (2 ^ 130 - 1) = .ok (.dec (-1#128)) ∧
      decodeWord (2 ^ 130) = .error .widerThanCommandWord := by decide

theorem witness_StepRunsThePresentedCommand :
    ((idle [presenting (.enc plain)]).ports.rst = false ∧ (idle [presenting (.enc plain)]).ports.cmdValid = true ∧
      decodeCmd (portWord (idle [presenting (.enc plain)]).ports) = .enc plain) ∧
    ((busy .encr 10#4 true 0#128 [quiet]).ports.rst = false ∧ (busy .encr 10#4 true 0#128 [quiet]).ports.cmdValid = false) ∧
    decodeTableWord 136 0x300112233445566778899AABBCCDDEEFF = some (.dec plain) := by decide

/-- One state for each row of rule R126, at both ends of the range of `rnd` where the row has one. -/
theorem witness_StepMachineTable :
    (busy .decr 8#4 true 0#128 [resetting]).ports.rst = true ∧
    ((idle [quiet]).ports.rst = false ∧ (idle [quiet]).phase = .idle ∧ (idle [quiet]).ports.cmdValid = false) ∧
    ([Instr.rsvd 0#128, .ldkey 0#128, .enc 0#128, .dec 0#128].map
        (fun i => (decide ((idle [presenting i]).phase = .idle), (idle [presenting i]).ports.rst,
          (idle [presenting i]).ports.cmdValid, (idle [presenting i]).ports.cmdOp, (idle [presenting i]).keyValid)) =
      [(true, false, true, 0b00#2, false), (true, false, true, 0b01#2, false), (true, false, true, 0b10#2, false),
        (true, false, true, 0b11#2, false)]) ∧
    ([Instr.enc 0#128, .dec 0#128].map
        (fun i => (decide ((keyed kSeq [presenting i]).phase = .idle), (keyed kSeq [presenting i]).ports.cmdValid,
          (keyed kSeq [presenting i]).ports.cmdOp, (keyed kSeq [presenting i]).keyValid)) =
      [(true, true, 0b10#2, true), (true, true, 0b11#2, true)]) ∧
    ((busy .kexp 1#4 false 0#128 [quiet]).phase = .kexp ∧ (busy .kexp 1#4 false 0#128 [quiet]).rnd.toNat = 0 + 1 ∧
      (busy .kexp 10#4 false 0#128 [quiet]).rnd.toNat = 9 + 1) ∧
    ((busy .encr 1#4 true 0#128 [quiet]).phase = .encr ∧ (busy .encr 1#4 true 0#128 [quiet]).rnd.toNat = 1 ∧
      (busy .encr 10#4 true 0#128 [quiet]).rnd.toNat = 10) ∧
    ((busy .decr 10#4 true 0#128 [quiet]).phase = .decr ∧ (busy .decr 10#4 true 0#128 [quiet]).rnd.toNat = 10 ∧
      (busy .decr 1#4 true 0#128 [quiet]).rnd.toNat = 1 ∧ (busy .decr 0#4 true 0#128 [quiet]).rnd.toNat = 0) ∧
    ((busy .resp 0#4 true 0#128 [taking]).phase = .resp ∧ (busy .resp 0#4 true 0#128 [taking]).ports.rspReady = true ∧
      (busy .resp 0#4 true 0#128 [quiet]).ports.rspReady = false) := by decide

/-- The second clause of the table: each command with the edges it needs. -/
theorem witness_StepMachineTable_counts :
    ∀ i ∈ [Instr.rsvd 0#128, .ldkey 0#128, .enc 0#128, .dec 0#128],
      (keyed kSeq (wholeCommand i 11 0)).phase = .idle ∧ (keyed kSeq (wholeCommand i 11 0)).presented = some i ∧
      (keyed kSeq (wholeCommand i 11 0)).ResetLow (busySteps (keyed kSeq (wholeCommand i 11 0)).cipher i + 1) := by decide

theorem witness_IgnoredInputsHaveNoEffect :
    ((presenting (.enc plain)).rst = quiet.rst ∧ (busy .kexp 1#4 false 0#128 []).phase ≠ .idle ∧
      (presenting (.enc plain)).rspReady = quiet.rspReady) ∧
    (taking.rst = quiet.rst ∧ (idle []).phase ≠ .resp ∧ taking.cmdValid = quiet.cmdValid ∧ taking.cmdOp = quiet.cmdOp ∧
      taking.cmdData = quiet.cmdData) ∧
    (({ quiet with cmdOp := 1#2 } : PortIn).cmdValid = false ∧ quiet.cmdValid = false) ∧
    (resetting.rst = ({ quiet with rst := true } : PortIn).rst ∧ resetting.rst = true) := by decide

theorem witness_CommandWaitsWhileBusy :
    ∀ p ∈ [Phase.kexp, .encr, .decr, .resp], (busy p 1#4 true 0#128 []).phase ≠ .idle := by decide

theorem witness_ResetStepResetsEverything : (busy .kexp 3#4 false (-1#128) [resetting]).ports.rst = true := by decide

/-- States that meet the invariants in every phase, at both ends of the range of `rnd`. -/
theorem witness_Inv :
    ∀ s ∈ [idle [], keyed kSeq [], busy .kexp 1#4 false 0#128 [], busy .kexp 10#4 false 0#128 [],
        busy .encr 1#4 true (-1#128) [], busy .encr 10#4 true (-1#128) [], busy .decr 10#4 true (-1#128) [],
        busy .decr 0#4 true (-1#128) [], busy .resp 0#4 true (-1#128) [],
        { busy .resp 0#4 false 0#128 [] with rstat := 0b01#2 }], s.Inv := by decide +kernel

theorem witness_StepKeepsInvariants :
    ((busy .kexp 10#4 false 0#128 [quiet]).Inv ∧ ∃ t, step (busy .kexp 10#4 false 0#128 [quiet]) = .next t ∧ t.keyValid = true) ∧
    ((busy .decr 0#4 true 0#128 [quiet]).Inv ∧
      ∃ t, step (busy .decr 0#4 true 0#128 [quiet]) = .next t ∧ decide (t.phase = .resp) = true) :=
  ⟨⟨by decide +kernel, exists_next (p := fun t => t.keyValid) (by decide +kernel)⟩,
    ⟨by decide +kernel, exists_next (p := fun t => decide (t.phase = .resp)) (by decide +kernel)⟩⟩

/-- A run from reset that loads a key, with its response taken. -/
theorem witness_InvariantsHoldOnEveryRunFromReset :
    ∃ t, Sys2Proof.core.run 12 { State.reset with pins := wholeCommand (.ldkey kSeq) 10 0 } = .next t ∧
      (t.keyValid && decide (t.phase = .idle)) = true :=
  exists_next (p := fun t => t.keyValid && decide (t.phase = .idle)) (by decide +kernel)

theorem witness_InvariantStatesRunForever : (busy .decr 10#4 true plain []).Inv := by decide +kernel

theorem witness_StatusThreeIsNeverProduced :
    (idle [presenting (.rsvd 0#128)]).rstat ≠ 0b11#2 ∧
      ∃ t, step (idle [presenting (.rsvd 0#128)]) = .next t ∧ decide (t.rstat = 0b10#2) = true :=
  ⟨by decide, exists_next (p := fun t => decide (t.rstat = 0b10#2)) (by decide)⟩

theorem witness_OutputsAreFunctionsOfTheState :
    (busy .resp 0#4 true plain []).phase = .resp ∧ (busy .encr 1#4 true plain []).phase ≠ .resp := by decide

/-- Two states that agree on what the outputs read and differ in the schedule, `rnd`, `key_valid` and, when busy, `S`. -/
theorem witness_OutputsHideKeyAndIntermediateState :
    ((busy .encr 1#4 true plain []).phase = ({ busy .encr 7#4 false 0#128 [] with RK := expand kSeq } : State).phase ∧
      ((busy .encr 1#4 true plain []).phase = .resp → False)) ∧
    ((busy .resp 0#4 true plain []).phase = ({ busy .resp 3#4 false plain [] with RK := expand kSeq } : State).phase ∧
      (busy .resp 0#4 true plain []).S = ({ busy .resp 3#4 false plain [] with RK := expand kSeq } : State).S) := by decide

theorem witness_ErrorResponsesCarryNoData :
    ({ busy .resp 0#4 false 0#128 [] with rstat := 0b01#2 } : State).Inv ∧
      ({ busy .resp 0#4 false 0#128 [] with rstat := 0b01#2 } : State).rspStatus ≠ 0b00#2 := by decide +kernel

theorem witness_LdkeyLoadsTheExpandedSchedule :
    (keyed kTest (wholeCommand (.ldkey kSeq) 10 0)).phase = .idle ∧
      (keyed kTest (wholeCommand (.ldkey kSeq) 10 0)).presented = some (.ldkey kSeq) ∧
      (keyed kTest (wholeCommand (.ldkey kSeq) 10 0)).ResetLow 11 := by decide

/-- With a key at both ends of the range of r, and without a key. -/
theorem witness_EncAnswersTheCiphertext :
    ((keyed kSeq (wholeCommand (.enc plain) 10 0)).phase = .idle ∧
      (keyed kSeq (wholeCommand (.enc plain) 10 0)).keyValid = true ∧
      (keyed kSeq (wholeCommand (.enc plain) 10 0)).presented = some (.enc plain) ∧
      (keyed kSeq (wholeCommand (.enc plain) 10 0)).ResetLow (0 + 1) ∧
      (keyed kSeq (wholeCommand (.enc plain) 10 0)).ResetLow (9 + 1) ∧
      (keyed kSeq (wholeCommand (.enc plain) 10 0)).ResetLow 11) ∧
    ((idle []).phase = .idle ∧ (idle []).keyValid = false) := by decide

/-- With a key at both ends of the range of r, and without a key. -/
theorem witness_DecAnswersThePlaintext :
    ((keyed kSeq (wholeCommand (.dec cipherText) 11 0)).phase = .idle ∧
      (keyed kSeq (wholeCommand (.dec cipherText) 11 0)).keyValid = true ∧
      (keyed kSeq (wholeCommand (.dec cipherText) 11 0)).presented = some (.dec cipherText) ∧
      (keyed kSeq (wholeCommand (.dec cipherText) 11 0)).ResetLow (0 + 1) ∧
      (keyed kSeq (wholeCommand (.dec cipherText) 11 0)).ResetLow (10 + 1) ∧
      (keyed kSeq (wholeCommand (.dec cipherText) 11 0)).ResetLow 12) ∧
    ((idle []).phase = .idle ∧ (idle []).keyValid = false) := by decide

theorem witness_BlockCommandWithoutKeyAnswersNoKey : (idle []).phase = .idle ∧ (idle []).keyValid = false := by decide

theorem witness_ReservedOpcodeAnswersIllegal : (idle []).phase = .idle ∧ (keyed kSeq []).phase = .idle := by decide

/-- Every clause at both ends of the range of `rnd`, the stop included. -/
theorem witness_MicroStepsOfTheBusyPhases :
    ((busy .kexp 1#4 false 0#128 []).phase = .kexp ∧ (busy .kexp 1#4 false 0#128 []).rnd.toNat = 0 + 1 ∧
      (busy .kexp 10#4 false 0#128 []).rnd.toNat = 9 + 1) ∧
    ((busy .encr 10#4 true 0#128 []).phase = .encr ∧ (busy .encr 10#4 true 0#128 []).rnd.toNat < 11 ∧
      (busy .encr 1#4 true 0#128 []).rnd.toNat < 11) ∧
    ((busy .decr 0#4 true 0#128 []).phase = .decr ∧ (busy .decr 0#4 true 0#128 []).rnd.toNat < 11 ∧
      (busy .decr 10#4 true 0#128 []).rnd.toNat < 11) ∧
    ((busy .kexp 0#4 false 0#128 []).phase = .kexp ∧ (busy .kexp 0#4 false 0#128 []).rnd = 0#4) ∧
    ∀ p ∈ [Phase.kexp, .encr, .decr], (busy p 11#4 true 0#128 []).phase = p ∧ 11 ≤ (busy p 11#4 true 0#128 []).rnd.toNat := by
  decide

theorem witness_TakingTheResponse :
    (busy .resp 0#4 true plain [taking]).phase = .resp ∧ (busy .resp 0#4 true plain [taking]).ports.rst = false ∧
      (busy .resp 0#4 true plain [taking]).ports.rspReady = true ∧
      (busy .resp 0#4 true plain [quiet]).ports.rst = false ∧ (busy .resp 0#4 true plain [quiet]).ports.rspReady = false := by
  decide

theorem witness_AcceptedCommandFrames :
    ∀ i ∈ [Instr.rsvd 0#128, .ldkey 0#128, .enc 0#128, .dec 0#128], ∀ s ∈ [idle [], keyed kSeq []],
      s.phase = .idle ∧ (after? (exec i s)).isSome = true := by decide

/-- One state for each clause; in the first the accepted command is an `ENC`. -/
theorem witness_OnlyLdkeyWritesTheSchedule :
    ((keyed kSeq [presenting (.enc plain)]).ports.rst = false ∧ (keyed kSeq [presenting (.enc plain)]).phase ≠ .kexp ∧
      (∀ k, (keyed kSeq [presenting (.enc plain)]).accepted ≠ some (.ldkey k)) ∧
      (after? (step (keyed kSeq [presenting (.enc plain)]))).isSome = true) ∧
    ((busy .kexp 10#4 false 0#128 [quiet]).ports.rst = false ∧ (busy .kexp 10#4 false 0#128 [quiet]).phase = .kexp ∧
      9 ≠ (busy .kexp 10#4 false 0#128 [quiet]).rnd.toNat ∧
      (after? (step (busy .kexp 10#4 false 0#128 [quiet]))).isSome = true) ∧
    ((busy .kexp 1#4 false 0#128 [quiet]).phase = .kexp ∧ (busy .kexp 1#4 false 0#128 [quiet]).rnd ≠ 10#4 ∧
      (after? (step (busy .kexp 1#4 false 0#128 [quiet]))).isSome = true) := by
  refine ⟨⟨by decide, by decide, ?_, by decide⟩, by decide, by decide⟩
  intro k
  have e : (keyed kSeq [presenting (.enc plain)]).accepted = some (.enc plain) := by decide
  rw [e]
  exact fun h => by cases h

theorem witness_UntakenResponseStaysForEver :
    (busy .resp 0#4 true plain [quiet, quiet, quiet]).phase = .resp ∧
      (busy .resp 0#4 true plain [quiet, quiet, quiet]).ResetLow 3 ∧
      (busy .resp 0#4 true plain [quiet, quiet, quiet]).HostWaits 0 3 := by decide

/-- `ENC` and `DEC` with a key, the host waiting twice; the reserved opcode and `ENC` without a key, the host not waiting. -/
theorem witness_BlockCommandsLeaveNoTrace :
    ∀ x ∈ [(keyed kSeq (wholeCommand (.enc plain) 10 2), Instr.enc plain, 2),
        (keyed kSeq (wholeCommand (.dec plain) 11 2), .dec plain, 2),
        (keyed kSeq (wholeCommand (.rsvd plain) 0 0), .rsvd plain, 0),
        (idle (wholeCommand (.enc plain) 0 0), .enc plain, 0)],
      x.1.Inv ∧ x.1.phase = .idle ∧ x.1.presented = some x.2.1 ∧ x.2.1.opcode ≠ 0b01#2 ∧
      x.1.ResetLow (busySteps x.1.cipher x.2.1 + x.2.2 + 2) ∧
      x.1.HostWaits (busySteps x.1.cipher x.2.1 + 1) x.2.2 ∧
      (x.1.portsAt (busySteps x.1.cipher x.2.1 + x.2.2 + 1)).rspReady = true := by decide +kernel

/-- Every command, the host waiting 0 edges or 2. -/
theorem witness_StepMachineRefinesCommandLevel :
    ∀ x ∈ [(idle (wholeCommand (.ldkey kSeq) 10 0), Instr.ldkey kSeq, 0),
        (keyed kTest (wholeCommand (.ldkey kSeq) 10 2), .ldkey kSeq, 2),
        (keyed kSeq (wholeCommand (.enc plain) 10 2), .enc plain, 2),
        (keyed kSeq (wholeCommand (.dec plain) 11 2), .dec plain, 2),
        (keyed kSeq (wholeCommand (.rsvd plain) 0 0), .rsvd plain, 0),
        (idle (wholeCommand (.dec plain) 0 0), .dec plain, 0)],
      x.1.phase = .idle ∧ x.1.presented = some x.2.1 ∧
      x.1.ResetLow (busySteps x.1.cipher x.2.1 + x.2.2 + 2) ∧
      x.1.HostWaits (busySteps x.1.cipher x.2.1 + 1) x.2.2 ∧
      (x.1.portsAt (busySteps x.1.cipher x.2.1 + x.2.2 + 1)).rspReady = true := by decide +kernel

/-- A run that ends in `IDLE` after a whole `LDKEY` and a whole `RSVD`, and one that ends with a command in progress. -/
theorem witness_ResponsesFollowCommandsInOrder :
    ((idle (wholeCommand (.ldkey kSeq) 10 0 ++ wholeCommand (.rsvd 0#128) 0 0)).phase = .idle ∧
      (idle (wholeCommand (.ldkey kSeq) 10 0 ++ wholeCommand (.rsvd 0#128) 0 0)).ResetLow 14 ∧
      ∃ t, Sys2Proof.core.run 14 (idle (wholeCommand (.ldkey kSeq) 10 0 ++ wholeCommand (.rsvd 0#128) 0 0)) = .next t ∧
        decide (t.phase = .idle) = true) ∧
    ((idle (wholeCommand (.ldkey kSeq) 10 0)).ResetLow 3 ∧
      ∃ t, Sys2Proof.core.run 3 (idle (wholeCommand (.ldkey kSeq) 10 0)) = .next t ∧ decide (t.phase = .kexp) = true) :=
  ⟨⟨by decide, by decide, exists_next (p := fun t => decide (t.phase = .idle)) (by decide +kernel)⟩,
    ⟨by decide, exists_next (p := fun t => decide (t.phase = .kexp)) (by decide +kernel)⟩⟩

theorem witness_BusyPhasesReachTheResponse :
    ∀ s ∈ [busy .kexp 1#4 false 0#128 (List.replicate 11 quiet), busy .encr 10#4 true plain (List.replicate 11 quiet),
        busy .decr 10#4 true plain (List.replicate 11 quiet)],
      s.Inv ∧ (s.phase = .kexp ∨ s.phase = .encr ∨ s.phase = .decr) ∧ s.ResetLow 11 := by decide +kernel

/-- A reset in the middle of a `DEC`, followed by two edges at which nothing is presented. -/
theorem witness_ResetAbandonsTheCommand :
    (busy .decr 8#4 true plain [resetting, taking, taking]).ports.rst = true ∧
      ∃ t, step (busy .decr 8#4 true plain [resetting, taking, taking]) = .next t ∧
        (decide (t.ResetLow 2) && decide (acceptedIn 2 t = [])) = true :=
  ⟨by decide, exists_next (p := fun t => decide (t.ResetLow 2) && decide (acceptedIn 2 t = [])) (by decide +kernel)⟩

theorem witness_KeyStepFormula :
    ∀ i ∈ [1, 10], (1 ≤ i ∧ i ≤ 10) ∧ ∀ b ∈ [0, 119, 124, 127], b < 128 ∧ ¬(120 ≤ b ∧ b ≤ 123) := by decide

theorem witness_RotationByThirteenWiring : ∀ b ∈ [0, 114, 115, 127], b < 128 := by decide

theorem witness_ExpandIsTheSchedule : ∀ i ∈ [0, 9], i < 10 := by decide

theorem witness_ScheduleClosedForm : ∀ i ∈ [0, 10], i < 11 := by decide

theorem witness_KeyStepIsABijection :
    (1 ≤ 1 ∧ 1 ≤ 10) ∧ (1 ≤ 10 ∧ 10 ≤ 10) ∧ 0 < 11 ∧ 10 < 11 ∧ (0x4B657931323334353637383930313233#128 : Word) ≠ kSeq := by decide

theorem witness_SubstitutionNibbleByNibble : ∀ i ∈ [0, 31], i < 32 := by decide

/-- Different values with equal nibbles at the two ends. -/
theorem witness_SubstitutionLaws :
    ∀ i ∈ [0, 31], i < 32 ∧ nib 0x10000000000000000000000000000002#128 i = nib 0x10000000000000010000000000000002#128 i := by
  decide

/-- The two positions a value that `PERM` leaves alone may use, and the ends of the range of p. -/
theorem witness_PermutationByteByByte :
    (∀ p ∈ [0, 15], p < 16) ∧
      ∀ p, p < 16 → p ≠ 0 → p ≠ 8 → byteAt 0x000000000000005A00000000000000A5#128 p = 0#8 := by decide

theorem witness_PermutationBitWiring : ∀ p ∈ [0, 15], ∀ k ∈ [0, 7], p < 16 ∧ k < 8 := by decide

theorem witness_PermutationByBufferIndex : ∀ j ∈ [0, 15], j < 16 := by decide

theorem witness_PermutationLaws :
    ∀ p ∈ [0, 15], p < 16 ∧ byteAt 0x10000000000000000000000000000002#128 p = byteAt 0x10000000000000010000000000000002#128 p := by
  decide

theorem witness_BlockFunctionsRoundByRound : ∀ r ∈ [0, 9], r < 10 := by decide

/-- Two schedules and two blocks that agree at byte position 15 and differ at position 7. -/
theorem witness_EveryByteIsItsOwnCipher :
    0 < 16 ∧ 15 < 16 ∧ (∀ r : Fin 11, byteAt (Vector.replicate 11 0x01000000000000000000000000000000#128)[r] 15 =
        byteAt (Vector.replicate 11 0x01000000000000005500000000000000#128)[r] 15) ∧
      byteAt 0xAB000000000000000000000000000000#128 15 = byteAt 0xAB000000000000005500000000000000#128 15 := by decide

theorem witness_BigEndianBuffers :
    (bytes16 plain).length = 16 ∧ ∀ j ∈ [0, 15], j < (bytes16 plain).length ∧ j < 16 := by decide

theorem witness_NewCipherChecksTheKeyLength :
    (List.replicate 15 0x41#8).length ≠ 16 ∧ (List.replicate 17 0x41#8).length ≠ 16 ∧ (bytes16 kSeq).length = 16 := by decide

theorem witness_BlockProceduresCheckTheLength :
    (List.replicate 15 0x41#8).length ≠ 16 ∧ (List.replicate 17 0x41#8).length ≠ 16 ∧ (bytes16 plain).length = 16 ∧
      (keyed kSeq []).cipher.keyValid = true ∧ Cipher.reset.keyValid = false := by decide

theorem witness_EncryptingAMessage :
    (keyed kSeq []).cipher.keyValid = true ∧ bytes16 plain ∈ blocksOf (pad (bytes16 plain)) := by decide

theorem witness_DecryptRejectsBadLengths :
    (List.replicate 15 0#8).length % 16 ≠ 0 ∧ (List.replicate 17 0#8).length % 16 ≠ 0 ∧ ([] : List Byte).length = 0 := by decide

/-- One-block ciphertexts whose decrypted final byte is 0, 1, 16 and 17 (vectors TP2, TP5, TP4, TP3). -/
theorem witness_DecryptingAMessage :
    (keyed kTest []).cipher.keyValid = true ∧ (∀ v : Word, (bytes16 v).length % 16 = 0 ∧ (bytes16 v).length ≠ 0) ∧
      decryptBlock (expand kTest) 0xE3311527D907653D8010340C2A5C53AE#128 = 0x41424344454647484950515253545500#128 ∧
      decryptBlock (expand kTest) 0xE3311527D907653D8010340C2A5C53AC#128 = 0x41424344454647484950515253545501#128 ∧
      decryptBlock (expand kTest) 0xE3311527D907653D8010340C2A5C53DE#128 = 0x41424344454647484950515253545510#128 ∧
      decryptBlock (expand kTest) 0xE3311527D907653D8010340C2A5C53DC#128 = 0x41424344454647484950515253545511#128 :=
  ⟨rfl, fun v => ⟨by simp [bytes16], by simp [bytes16]⟩, by decide +kernel, by decide +kernel, by decide +kernel,
    by decide +kernel⟩

theorem witness_MessageRoundTrip : (keyed kSeq []).cipher.keyValid = true := by decide

theorem witness_HexTextRoundTrip : 'F' ∈ bytesToHex [0x1F#8, 0xA0#8] := by decide

end Sys2Proof.Tests
end

/-! PROOFS. The family of spec/10_state.md: the reset values (rule R33), the invariants of rule R34 along every run from reset, and
the outputs (rule R35). -/

namespace Sys2Proof.Machine

variable {s t : State}

/-! ### What an edge without a command can do -/

/-- Rows 2 and 8 to 12 of rule R126. -/
theorem engineEdge_cases (h : engineEdge s = .next t) :
    (s.phase = .idle ∧ t = s) ∨
    (s.phase = .kexp ∧ expansionStep s = .next t) ∨
    (s.phase = .encr ∧ encRoundStep s = .next t) ∨
    (s.phase = .decr ∧ decRoundStep s = .next t) ∨
    (s.phase = .resp ∧ s.ports.rspReady = true ∧ t = takeResponse s) ∨
    (s.phase = .resp ∧ s.ports.rspReady = false ∧ t = s) := by
  cases hp : s.phase <;> simp only [engineEdge, hp] at h
  case idle => simp [Host.Outcome.next.inj h]
  case kexp => simp [h]
  case encr => simp [h]
  case decr => simp [h]
  case resp => cases hr : s.ports.rspReady <;> simp only [hr] at h <;> simp [Host.Outcome.next.inj h]

/-! ### What the invariants say in each phase (rule R34) -/

theorem inv_iff_of_idle (hp : s.phase = .idle) :
    s.Inv ↔ s.ScheduleExpanded ∧ s.S = 0#128 ∧ s.rnd = 0#4 ∧ s.rstat = 0#2 := by
  simp only [State.Inv, State.IdleClean, State.BlockHasKey, State.ExpansionPrefix, State.RoundInRange, State.ResponseClean, hp]
  simp [and_comm, and_assoc]

theorem inv_iff_of_kexp (hp : s.phase = .kexp) :
    s.Inv ↔ s.keyValid = false ∧ 1 ≤ s.rnd.toNat ∧ s.rnd.toNat ≤ 10 ∧
      ∀ i : Fin 10, i.val + 1 < s.rnd.toNat → s.RK[i.val + 1] = kstep s.RK[i.val] (i.val + 1) := by
  simp +contextual [State.Inv, State.IdleClean, State.BlockHasKey, State.ExpansionPrefix, State.RoundInRange, State.ResponseClean, hp]

theorem inv_iff_of_encr (hp : s.phase = .encr) :
    s.Inv ↔ s.ScheduleExpanded ∧ s.keyValid = true ∧ 1 ≤ s.rnd.toNat ∧ s.rnd.toNat ≤ 10 := by
  simp [State.Inv, State.IdleClean, State.BlockHasKey, State.ExpansionPrefix, State.RoundInRange, State.ResponseClean, hp]

theorem inv_iff_of_decr (hp : s.phase = .decr) :
    s.Inv ↔ s.ScheduleExpanded ∧ s.keyValid = true ∧ s.rnd.toNat ≤ 10 := by
  simp [State.Inv, State.IdleClean, State.BlockHasKey, State.ExpansionPrefix, State.RoundInRange, State.ResponseClean, hp]

theorem inv_iff_of_resp (hp : s.phase = .resp) :
    s.Inv ↔ s.ScheduleExpanded ∧ s.rnd = 0#4 ∧ (s.rstat ≠ statusOk → s.S = 0#128) := by
  simp [State.Inv, State.IdleClean, State.BlockHasKey, State.ExpansionPrefix, State.RoundInRange, State.ResponseClean, hp]

/-- The invariants do not read the model's own two fields, so they hold right after a reset whatever the inputs are. -/
theorem inv_reset (pins : List PortIn) (edges : Nat) : { State.reset with pins := pins, edges := edges }.Inv :=
  (inv_iff_of_idle rfl).mpr ⟨nofun, rfl, rfl, rfl⟩

theorem afterEdge_inv (hs : s.Inv) : s.afterEdge.Inv := hs

/-! ### The schedule -/

theorem getElem_expand (k : Word) {i : Nat} (hi : i < 11) : (expand k)[i] = roundKey k i := by
  interval_cases i <;> rfl

/-- A schedule whose every key is the schedule step of the one before is the expansion of its first key (rule R81). -/
theorem eq_expand_of_kstep {rk : Schedule} (h : ∀ i, (hi : i < 10) → rk[i + 1] = kstep rk[i] (i + 1)) : rk = expand rk[0] := by
  have key : ∀ i, (hi : i < 11) → rk[i] = roundKey rk[0] i := by
    intro i
    induction i with
    | zero => intro _; rfl
    | succ i ih => intro hi; rw [h i (by omega), ih (by omega)]; rfl
  ext1 i hi
  rw [key i hi, getElem_expand _ hi]

/-- Writing the next key of a schedule whose first `n` keys follow rule R80 gives one more such key. -/
theorem writeRK_kstep_prefix {n : Nat} (hn : n < 10)
    (h : ∀ i : Fin 10, i.val + 1 < n + 1 → s.RK[i.val + 1] = kstep s.RK[i.val] (i.val + 1)) (i : Fin 10) (hi : i.val < n + 1) :
    (s.writeRK (n + 1) (kstep s.RK[n] (n + 1))).RK[i.val + 1] =
      kstep (s.writeRK (n + 1) (kstep s.RK[n] (n + 1))).RK[i.val] (i.val + 1) := by
  rw [writeRK_getElem_ne s (n + 1) _ (j := i.val) (by omega) (by omega)]
  obtain hlt | heq : i.val < n ∨ i.val = n := by omega
  · rw [writeRK_getElem_ne s (n + 1) _ (by omega) (by omega)]
    exact h i (by omega)
  · simp only [heq]
    exact writeRK_getElem_self s (n + 1) _ (by omega)

/-! ### Every operation keeps the invariants -/

theorem raiseError_inv (st : BitVec 2) (hs : s.ScheduleExpanded) : (raiseError st s).Inv :=
  (inv_iff_of_resp rfl).mpr ⟨hs, rfl, fun _ => rfl⟩

theorem takeResponse_inv (hp : s.phase = .resp) (hs : s.Inv) : (takeResponse s).Inv := by
  obtain ⟨hsched, hrnd, -⟩ := (inv_iff_of_resp hp).mp hs
  exact (inv_iff_of_idle rfl).mpr ⟨hsched, rfl, hrnd, rfl⟩

theorem accept_inv (i : Instr) (hs : s.ScheduleExpanded) : (accept i s).Inv := by
  cases i with
  | rsvd d => exact raiseError_inv _ hs
  | ldkey k => exact (inv_iff_of_kexp rfl).mpr ⟨rfl, by simp [accept], by simp [accept], by simp [accept]⟩
  | enc b =>
    by_cases hk : s.keyValid = true
    · simp only [accept, acceptEnc, if_pos hk]
      exact (inv_iff_of_encr rfl).mpr ⟨hs, hk, by simp, by simp⟩
    · simp only [accept, acceptEnc, if_neg hk]
      exact raiseError_inv _ hs
  | dec c =>
    by_cases hk : s.keyValid = true
    · simp only [accept, acceptDec, if_pos hk]
      exact (inv_iff_of_decr rfl).mpr ⟨hs, hk, by simp⟩
    · simp only [accept, acceptDec, if_neg hk]
      exact raiseError_inv _ hs

theorem expansionStep_inv (hp : s.phase = .kexp) (hs : s.Inv) (h : expansionStep s = .next t) : t.Inv := by
  obtain ⟨hkey, -, -, hpre⟩ := (inv_iff_of_kexp hp).mp hs
  obtain ⟨n, hn, hr, hstep⟩ := expansionStep_cases h
  have hnext := writeRK_kstep_prefix hn (by simpa [hr] using hpre)
  obtain ⟨hlast, rfl⟩ | ⟨hlast, rfl⟩ := hstep
  · have hrnd : (s.rnd + 1#4).toNat = n + 2 := by bv_omega
    refine Iff.mpr (inv_iff_of_kexp hp) ⟨hkey, by simp only [hrnd]; omega, by simp only [hrnd]; omega, fun i hi => hnext i ?_⟩
    simp only [hrnd] at hi
    omega
  · refine (inv_iff_of_resp rfl).mpr ⟨fun _ => ?_, rfl, fun hne => absurd rfl hne⟩
    exact eq_expand_of_kstep fun i hi => hnext ⟨i, hi⟩ (by simp only; omega)

theorem encRoundStep_inv (hp : s.phase = .encr) (hs : s.Inv) (h : encRoundStep s = .next t) : t.Inv := by
  obtain ⟨hsched, hkey, -, hle⟩ := (inv_iff_of_encr hp).mp hs
  obtain ⟨-, ⟨hlast, rfl⟩ | ⟨-, rfl⟩⟩ := encRoundStep_cases h
  · have hrnd : (s.rnd + 1#4).toNat = s.rnd.toNat + 1 := by bv_omega
    exact Iff.mpr (inv_iff_of_encr hp) ⟨hsched, hkey, by simp only [hrnd]; omega, by simp only [hrnd]; omega⟩
  · exact (inv_iff_of_resp rfl).mpr ⟨hsched, rfl, fun hne => absurd rfl hne⟩

theorem decRoundStep_inv (hp : s.phase = .decr) (hs : s.Inv) (h : decRoundStep s = .next t) : t.Inv := by
  obtain ⟨hsched, hkey, hle⟩ := (inv_iff_of_decr hp).mp hs
  obtain ⟨-, ⟨hpos, rfl⟩ | ⟨hzero, rfl⟩⟩ := decRoundStep_cases h
  · have hrnd : (s.rnd - 1#4).toNat = s.rnd.toNat - 1 := by bv_omega
    exact Iff.mpr (inv_iff_of_decr hp) ⟨hsched, hkey, by simp only [hrnd]; omega⟩
  · exact (inv_iff_of_resp rfl).mpr ⟨hsched, BitVec.eq_of_toNat_eq hzero, fun hne => absurd rfl hne⟩

theorem engineEdge_inv (hs : s.Inv) (h : engineEdge s = .next t) : t.Inv := by
  obtain ⟨-, rfl⟩ | ⟨hp, he⟩ | ⟨hp, he⟩ | ⟨hp, he⟩ | ⟨hp, -, rfl⟩ | ⟨-, -, rfl⟩ := engineEdge_cases h
  · exact hs
  · exact expansionStep_inv hp hs he
  · exact encRoundStep_inv hp hs he
  · exact decRoundStep_inv hp hs he
  · exact takeResponse_inv hp hs
  · exact hs

theorem step_inv (hs : s.Inv) (h : step s = .next t) : t.Inv := by
  obtain ⟨-, rfl⟩ | ⟨-, -, i, -, rfl⟩ | ⟨-, -, -, rfl⟩ | ⟨-, -, u, hu, rfl⟩ := step_cases h
  · exact inv_reset _ _
  · obtain ⟨-, hsched, -⟩ := hs
    exact afterEdge_inv (accept_inv i hsched)
  · exact afterEdge_inv hs
  · exact afterEdge_inv (engineEdge_inv hs hu)

/-! ### The outputs -/

theorem cmdReady_iff : s.cmdReady = true ↔ s.phase = .idle := decide_eq_true_iff

theorem rspValid_iff : s.rspValid = true ↔ s.phase = .resp := decide_eq_true_iff

theorem rspStatus_of_resp (h : s.phase = .resp) : s.rspStatus = s.rstat := if_pos h

theorem rspData_of_resp (h : s.phase = .resp) : s.rspData = s.S := if_pos h

theorem rspStatus_of_ne_resp (h : s.phase ≠ .resp) : s.rspStatus = 0#2 := if_neg h

theorem rspData_of_ne_resp (h : s.phase ≠ .resp) : s.rspData = 0#128 := if_neg h

/-! ### The obligations -/

/-- Settles O11: reset meets the invariants, every step keeps them, and so every run does. -/
theorem invariantsHoldOnEveryRunFromReset : Obligations.InvariantsHoldOnEveryRunFromReset := by
  intro inputs n t h
  exact run_invariant (P := State.Inv) (fun _ _ => step_inv) (inv_reset inputs 0) h

/-- Settles O9: the six items by the reset values, the outputs by `phase = IDLE`, the invariants by `inv_reset`. -/
theorem resetStateMeetsTheInvariants : Obligations.ResetStateMeetsTheInvariants := by
  have hidle : State.reset.phase = .idle := rfl
  have hne : State.reset.phase ≠ .resp := by simp [hidle]
  refine ⟨fun i hi => ?_, rfl, rfl, hidle, rfl, rfl, cmdReady_iff.mpr hidle, ?_, rspStatus_of_ne_resp hne,
    rspData_of_ne_resp hne, inv_reset [] 0⟩
  · exact Vector.getElem_replicate hi
  · exact Bool.eq_false_iff.mpr (mt rspValid_iff.mp hne)

/-- Settles O14, output by output. -/
theorem outputsAreFunctionsOfTheState : Obligations.OutputsAreFunctionsOfTheState := fun _ =>
  ⟨cmdReady_iff, rspValid_iff, fun h => ⟨rspStatus_of_resp h, rspData_of_resp h⟩,
    fun h => ⟨rspStatus_of_ne_resp h, rspData_of_ne_resp h⟩⟩

end Sys2Proof.Machine

/-! PROOFS. The family of spec/20_memory.md: a 16-byte buffer and its big-endian value (rules R41 and R42). -/

namespace Sys2Proof.Machine

/-- Rule R42, byte by byte. -/
@[simp] theorem getElem_bytes16 (v : Word) {j : Nat} (hj : j < (bytes16 v).length) :
    (bytes16 v)[j] = v.extractLsb' (120 - 8 * j) 8 := by simp [bytes16]

/-- Rule R41, byte by byte. -/
theorem extractLsb'_be128 {b : List Byte} (hb : b.length = 16) {j : Nat} (hj : j < b.length) :
    (be128 b).extractLsb' (120 - 8 * j) 8 = b[j] := by
  ext i hi
  have hbyte : b.length - 1 - (120 - 8 * j + i) / 8 = j := by omega
  have hbit : (120 - 8 * j + i) % 8 = i := by omega
  rw [BitVec.getElem_extractLsb', getLsbD_be128 b _ (by omega) (by omega)]
  simp only [hbyte, hbit, BitVec.getLsbD_eq_getElem hi]

theorem bytes16_be128 {b : List Byte} (hb : b.length = 16) : bytes16 (be128 b) = b :=
  List.ext_getElem (by simp [hb]) fun j _ hj => by rw [getElem_bytes16, extractLsb'_be128 hb hj]

/-- Bit `k` of a value stands in byte `15 - k / 8` of its buffer, so reading the buffer back gives it again. -/
theorem be128_bytes16 (v : Word) : be128 (bytes16 v) = v := by
  ext k hk
  have hbit : 120 - 8 * ((bytes16 v).length - 1 - k / 8) + k % 8 = k := by rw [length_bytes16]; omega
  rw [← BitVec.getLsbD_eq_getElem, getLsbD_be128 _ k hk (by rw [length_bytes16]; omega), getElem_bytes16,
    BitVec.getLsbD_extractLsb', hbit]
  simp [Nat.mod_lt, hk]

/-- Settles O48: the bytes by `extractLsb'_be128` and `getElem_bytes16`, the inverse laws by `bytes16_be128` and
`be128_bytes16`, the worked example by evaluation. -/
theorem bigEndianBuffers : Obligations.BigEndianBuffers := by
  refine ⟨fun b hb => ⟨bytes16_be128 hb, fun j hj => extractLsb'_be128 hb hj⟩,
    fun v => ⟨length_bytes16 v, be128_bytes16 v, fun j hj => ?_⟩, by decide⟩
  have hlt : j < (bytes16 v).length := by rwa [length_bytes16]
  rw [List.getElem?_eq_getElem hlt, getElem_bytes16]

end Sys2Proof.Machine

/-! PROOFS. The family of spec/30_encoding.md: decoding and encoding a command are inverse to each other (rules R62 and R63). -/

namespace Sys2Proof

@[simp] theorem opField_encode (i : Instr) : opField (encode i) = i.opcode := opField_append i.opcode i.data

@[simp] theorem dataField_encode (i : Instr) : dataField (encode i) = i.data := dataField_append i.opcode i.data

@[simp] theorem decodeOp_opcode_data (i : Instr) : decodeOp i.opcode i.data = i := by
  cases i with
  | rsvd d => exact decodeOp_rsvd d
  | ldkey k => exact decodeOp_ldkey k
  | enc b => exact decodeOp_enc b
  | dec c => exact decodeOp_dec c

@[simp] theorem encode_decodeOp (op : BitVec 2) (data : Word) :
    encode (decodeOp op data) = (op ++ data : BitVec (2 + 128)) := by
  obtain rfl | rfl | rfl | rfl := opcode_cases op
  · rw [decodeOp_rsvd]; rfl
  · rw [decodeOp_ldkey]; rfl
  · rw [decodeOp_enc]; rfl
  · rw [decodeOp_dec]; rfl

theorem decodeCmd_encode (i : Instr) : decodeCmd (encode i) = i := by
  rw [decodeCmd, opField_encode, dataField_encode, decodeOp_opcode_data]

theorem encode_decodeCmd (w : CmdWord) : encode (decodeCmd w) = w := by
  rw [decodeCmd, encode_decodeOp, append_fields]

/-- Settles O1: the inverse laws by `decodeCmd_encode` and `encode_decodeCmd`, the four rows of rule R63 by the two fields of an
encoded command. -/
theorem encodeAndDecodeAgree : Obligations.EncodeAndDecodeAgree :=
  have fields (i : Instr) : (encode i).extractLsb' 128 2 = i.opcode ∧ (encode i).extractLsb' 0 128 = i.data :=
    ⟨opField_encode i, dataField_encode i⟩
  ⟨fun i _ => decodeCmd_encode i, encode_decodeCmd,
    fun d => ⟨fields (.rsvd d), fields (.ldkey d), fields (.enc d), fields (.dec d)⟩⟩

end Sys2Proof

/-! PROOFS. The family of spec/40_key_scheduler.md: the rotation (rules R80 and R85), the schedule of a key (rule R81), and the run
of `LDKEY` from its accept step to its response (rules R82 and R84). -/

namespace Sys2Proof.Machine

/-! ### The rotation -/

/-- Where bit b of a value goes (rule R10). -/
theorem getLsbD_rotl128_add (v : Word) {n b : Nat} (hn : n < 128) (hb : b < 128) :
    (rotl128 v n).getLsbD ((b + n) % 128) = v.getLsbD b := by
  have hback : ((b + n) % 128 + (128 - n)) % 128 = b := by omega
  rw [getLsbD_rotl128 v n _ hn (Nat.mod_lt _ (by decide)), hback]

/-- The bits that a rotation moves up. -/
theorem extractLsb'_rotl128_high (v : Word) {n : Nat} (hn : n < 128) :
    (rotl128 v n).extractLsb' n (128 - n) = v.extractLsb' 0 (128 - n) := by
  ext j hj
  have hmod : (j + n) % 128 = n + j := by omega
  rw [BitVec.getElem_extractLsb', BitVec.getElem_extractLsb', Nat.zero_add, ← hmod, getLsbD_rotl128_add v hn (by omega)]

/-- The bits that a rotation moves round the end. -/
theorem extractLsb'_rotl128_low (v : Word) {n : Nat} (hn : n < 128) :
    (rotl128 v n).extractLsb' 0 n = v.extractLsb' (128 - n) n := by
  ext j hj
  have hmod : (128 - n + j + n) % 128 = 0 + j := by omega
  rw [BitVec.getElem_extractLsb', BitVec.getElem_extractLsb', ← hmod, getLsbD_rotl128_add v hn (by omega)]

@[simp] theorem rotl128_of_zero (n : Nat) : rotl128 0#128 n = 0#128 := by simp [rotl128]

/-! ### One step of the schedule -/

/-- A round index has four bits, so the constant of rule R80 has none outside 123:120. -/
theorem getLsbD_roundConstant {i b : Nat} (hi : i < 16) (hb : ¬(120 ≤ b ∧ b ≤ 123)) :
    (BitVec.ofNat 128 i <<< 120).getLsbD b = false := by
  rw [BitVec.getLsbD_shiftLeft, BitVec.getLsbD_ofNat]
  obtain hlo | hhi : b < 120 ∨ 4 ≤ b - 120 := by omega
  · simp [hlo]
  · have hbit : i.testBit (b - 120) = false :=
      Nat.testBit_lt_two_pow (hi.trans_le (Nat.pow_le_pow_right Nat.zero_lt_two hhi))
    simp [hbit]

theorem getLsbD_kstep_outside (prev : Word) {i b : Nat} (hi : i < 16) (hb : ¬(120 ≤ b ∧ b ≤ 123)) :
    (kstep prev i).getLsbD b = (rotl128 prev 13).getLsbD b := by
  rw [kstep, BitVec.getLsbD_xor, getLsbD_roundConstant hi hb, Bool.xor_false]

theorem kstep_of_zero (i : Nat) : kstep 0#128 i = BitVec.ofNat 128 i <<< 120 := by
  rw [kstep, rotl128_of_zero, BitVec.zero_xor]

/-! ### The schedule of a key -/

theorem roundKey_succ (k : Word) (i : Nat) : roundKey k (i + 1) = kstep (roundKey k i) (i + 1) := rfl

/-- A schedule that holds every round key of `k` is the expansion of `k` (rule R81). -/
theorem eq_expand_of_roundKey {rk : Schedule} {k : Word} (h : ∀ i, (hi : i < 11) → rk[i] = roundKey k i) : rk = expand k := by
  ext1 i hi
  rw [h i hi, getElem_expand k hi]

/-- A schedule that holds the round keys of `k` up to `n` holds one more after `RK[n + 1] <- KSTEP(RK[n], n + 1)`. -/
theorem getElem_setIfInBounds_kstep {rk : Schedule} {k : Word} {n : Nat} (hn : n < 10)
    (h : ∀ i, (hi : i ≤ n) → rk[i] = roundKey k i) (i : Nat) (hi : i ≤ n + 1) :
    (rk.setIfInBounds (n + 1) (kstep rk[n] (n + 1)))[i] = roundKey k i := by
  obtain rfl | hlt : i = n + 1 ∨ i ≤ n := by omega
  · rw [Vector.getElem_setIfInBounds_self, h n le_rfl, roundKey_succ]
  · rw [Vector.getElem_setIfInBounds_ne _ (by omega), h i hlt]

/-! ### The edges and the run of `LDKEY` -/

variable {s : State}

/-- Where `rst` stays 0, the edge after a run has `rst = 0`. -/
theorem rst_of_run {t : State} {n : Nat} (hrun : Sys2Proof.core.run n s = .next t) (hr : s.ResetLow (n + 1)) :
    t.ports.rst = false := by
  rw [State.ports, run_portsAt hrun 0]
  exact hr n (Nat.lt_succ_self n)

/-- Writing an existing round key, as rules R84 and R126 write it. -/
theorem writeRK_of_lt (s : State) {i : Nat} (v : Word) (hi : i < 11) : s.writeRK i v = { s with RK := s.RK.set i v } := by
  have hset : s.RK.setIfInBounds i v = s.RK.set i v := by
    ext1 j hj
    rw [Vector.getElem_setIfInBounds hj, Vector.getElem_set hi hj]
  rw [State.writeRK, hset]

/-- An edge of `KEXP` before the last expansion step (rule R126 row 8). -/
theorem step_of_kexp_mid (hp : s.phase = .kexp) (hr : s.ports.rst = false) {i : Nat} (hrnd : s.rnd.toNat = i + 1)
    (hi : i + 1 < 10) :
    step s = .next ({ s.writeRK (i + 1) (kstep s.RK[i] (i + 1)) with rnd := s.rnd + 1#4 } : State).afterEdge := by
  rw [step_of_busy (by simp [hp]) hr, engineEdge, hp]
  simp only [expansionStep_mid hrnd hi, passEdge]

/-- The edge of `KEXP` that completes the schedule (rule R126 row 8). -/
theorem step_of_kexp_last (hp : s.phase = .kexp) (hr : s.ports.rst = false) (hrnd : s.rnd.toNat = 10) :
    step s = .next ({ s.writeRK 10 (kstep s.RK[9] 10) with
      keyValid := true, rnd := 0#4, rstat := statusOk, phase := .resp } : State).afterEdge := by
  rw [step_of_busy (by simp [hp]) hr, engineEdge, hp]
  simp only [expansionStep_last hrnd, passEdge]

/-- The accept step, in the words of rule R84. -/
theorem exec_ldkey_idle (k : Word) (hp : s.phase = .idle) :
    exec (.ldkey k) s =
      .next { s with RK := s.RK.set 0 k, keyValid := false, S := 0#128, rnd := 1#4, phase := .kexp } := by
  rw [exec_idle _ hp, accept, acceptLdkey, writeRK_of_lt s k (by decide)]

/-- The accept step of `LDKEY k` and `n` expansion steps: round keys 0 to n of `k` are written, whatever stood there before. -/
theorem run_ldkey_kexp {k : Word} (hp : s.phase = .idle) (hk : s.presented = some (.ldkey k)) {n : Nat} (hn : n < 10)
    (hr : s.ResetLow (n + 1)) :
    ∃ rk : Schedule, (∀ i, (hi : i ≤ n) → rk[i] = roundKey k i) ∧
      Sys2Proof.core.run (n + 1) s = .next { s with
        RK := rk, keyValid := false, S := 0#128, rnd := BitVec.ofNat 4 (n + 1), phase := .kexp,
        pins := s.pins.drop (n + 1), edges := s.edges + (n + 1) } := by
  induction n with
  | zero =>
    refine ⟨s.RK.setIfInBounds 0 k, fun i hi => ?_, ?_⟩
    · obtain rfl : i = 0 := by omega
      simp [roundKey]
    · rw [run_succ_of_step (step_of_idle_presented hp hk), run_zero, List.drop_one]
      rfl
  | succ n ih =>
    obtain ⟨rk, hrk, hrun⟩ := ih (by omega) fun j hj => hr j (by omega)
    refine ⟨rk.setIfInBounds (n + 1) (kstep rk[n] (n + 1)), getElem_setIfInBounds_kstep (by omega) hrk, ?_⟩
    have hrnd : (BitVec.ofNat 4 (n + 1)).toNat = n + 1 := by rw [BitVec.toNat_ofNat]; omega
    rw [run_snoc hrun (step_of_kexp_mid rfl (rst_of_run hrun hr) hrnd (by omega)), BitVec.ofNat_add (n + 1) 1]
    simp [State.afterEdge, State.writeRK, Nat.add_assoc]

/-- The whole run of `LDKEY k`, from every state of `IDLE` (rule R82). -/
theorem run_ldkey {k : Word} (hp : s.phase = .idle) (hk : s.presented = some (.ldkey k)) (hr : s.ResetLow 11) :
    Sys2Proof.core.run 11 s = .next { s with
      RK := expand k, keyValid := true, S := 0#128, rnd := 0#4, rstat := statusOk, phase := .resp,
      pins := s.pins.drop 11, edges := s.edges + 11 } := by
  obtain ⟨rk, hrk, hrun⟩ := run_ldkey_kexp hp hk (n := 9) (by decide) fun j hj => hr j (by omega)
  have hexp : rk.setIfInBounds 10 (kstep rk[9] 10) = expand k :=
    eq_expand_of_roundKey fun i hi => getElem_setIfInBounds_kstep (by decide) hrk i (by omega)
  rw [run_snoc hrun (step_of_kexp_last rfl (rst_of_run hrun hr) rfl)]
  simp [State.afterEdge, State.writeRK, hexp]

/-! ### The obligations -/

/-- Settles O17: the accept step by `exec_ldkey_idle`, the run by `run_ldkey`, the round keys of the zero key by evaluation. -/
theorem ldkeyLoadsTheExpandedSchedule : Obligations.LdkeyLoadsTheExpandedSchedule :=
  ⟨fun _ k hp => exec_ldkey_idle k hp, fun _ _ hp hk hr => run_ldkey hp hk hr, by decide, by decide⟩

/-- Settles O32: the formula is the definition, the untouched bits by `getLsbD_kstep_outside`, the zero key by `kstep_of_zero`, the
worked example by evaluation. -/
theorem keyStepFormula : Obligations.KeyStepFormula :=
  ⟨fun prev i _ hi => ⟨rfl, fun _ _ hb => getLsbD_kstep_outside prev (by omega) hb, kstep_of_zero i⟩, by decide, by decide⟩

/-- Settles O33, with 13 for the amount of the three rotation lemmas. -/
theorem rotationByThirteenWiring : Obligations.RotationByThirteenWiring :=
  ⟨fun v => ⟨extractLsb'_rotl128_high v (n := 13) (by decide), extractLsb'_rotl128_low v (n := 13) (by decide),
    fun _ hb => getLsbD_rotl128_add v (by decide) hb⟩, by decide⟩

/-- Settles O34: the schedule holds the round keys (`getElem_expand`), and those follow rule R80 (`roundKey_succ`). -/
theorem expandIsTheSchedule : Obligations.ExpandIsTheSchedule := by
  refine ⟨fun k => ⟨getElem_expand k (by decide), fun i hi => ?_⟩, by decide, by decide, by decide⟩
  rw [getElem_expand k (by omega), getElem_expand k (by omega), roundKey_succ]

end Sys2Proof.Machine

/-! PROOFS. The family of spec/41_substitution.md: the two tables (rules R90 and R91), the substitution layers nibble by nibble
(rules R92 and R93), and their laws (rule R94). -/

namespace Sys2Proof.Machine

/-! ### The tables -/

@[simp] theorem invSbox_sbox : ∀ v : Nibble, invSbox (sbox v) = v := by decide

@[simp] theorem sbox_invSbox : ∀ v : Nibble, sbox (invSbox v) = v := by decide

theorem sbox_ne_self : ∀ v : Nibble, sbox v ≠ v := by decide

/-! ### The layers, nibble by nibble -/

theorem nib_sub (s : Word) {i : Nat} (hi : i < 32) : nib (sub s) i = sbox (nib s i) :=
  nib_packLanes (fun i => sbox (nib s i)) i hi

theorem nib_invSub (s : Word) {i : Nat} (hi : i < 32) : nib (invSub s) i = invSbox (nib s i) :=
  nib_packLanes (fun i => invSbox (nib s i)) i hi

/-! ### The laws of the layers, each from the law of the tables in every lane -/

@[simp] theorem invSub_sub (s : Word) : invSub (sub s) = s :=
  eq_of_nib_eq fun i hi => by rw [nib_invSub _ hi, nib_sub _ hi, invSbox_sbox]

@[simp] theorem sub_invSub (s : Word) : sub (invSub s) = s :=
  eq_of_nib_eq fun i hi => by rw [nib_sub _ hi, nib_invSub _ hi, sbox_invSbox]

theorem sub_bijective : Function.Bijective sub :=
  Function.bijective_iff_has_inverse.mpr ⟨invSub, invSub_sub, sub_invSub⟩

theorem invSub_bijective : Function.Bijective invSub :=
  Function.bijective_iff_has_inverse.mpr ⟨sub, sub_invSub, invSub_sub⟩

/-- The lanes are independent. -/
theorem nib_sub_congr {a b : Word} {i : Nat} (hi : i < 32) (h : nib a i = nib b i) : nib (sub a) i = nib (sub b) i := by
  rw [nib_sub a hi, nib_sub b hi, h]

/-- Each lane maps 0 to 0xC, but an XOR-linear function maps 0 to 0. -/
theorem sub_not_xor_linear : sub (0#128 ^^^ 0#128) ≠ sub 0#128 ^^^ sub 0#128 := by
  have hzero : sub 0#128 ≠ 0#128 := by decide
  rwa [BitVec.xor_self, BitVec.xor_self]

/-! ### The obligations -/

/-- Settles O38: the lanes by `nib_sub` and `nib_invSub`, the corner cases and the worked examples by evaluation. -/
theorem substitutionNibbleByNibble : Obligations.SubstitutionNibbleByNibble :=
  ⟨fun s _ hi => ⟨nib_sub s hi, nib_invSub s hi⟩,
    by decide, by decide, by decide, by decide, by decide, by decide⟩

/-- Settles O39, law by law. -/
theorem substitutionLaws : Obligations.SubstitutionLaws :=
  ⟨fun s => ⟨invSub_sub s, sub_invSub s⟩, sub_bijective, invSub_bijective, fun _ _ _ hi h => nib_sub_congr hi h,
    0#128, 0#128, sub_not_xor_linear⟩

/-- Settles O37: the sixteen entries of each table by evaluation, the three laws of the tables by name. -/
theorem substitutionTables : Obligations.SubstitutionTables :=
  ⟨by decide, by decide, fun v => ⟨invSbox_sbox v, sbox_invSbox v, sbox_ne_self v⟩⟩

end Sys2Proof.Machine

/-! PROOFS. The family of spec/42_permutation.md: the rotation of a byte (rule R10), the two permutation layers byte by byte (rules
R100 to R102), bit by bit (rule R103) and by buffer index (rule R104), and their laws (rule R105). -/

namespace Sys2Proof.Machine

/-! ### The rotation of a byte -/

/-- Where bit k of a byte goes (rule R10). -/
theorem getLsbD_rotl8_add (v : Byte) {n k : Nat} (hn : n < 8) (hk : k < 8) :
    (rotl8 v n).getLsbD ((k + n) % 8) = v.getLsbD k := by
  have hback : ((k + n) % 8 + (8 - n)) % 8 = k := by omega
  rw [getLsbD_rotl8 v n _ hn (Nat.mod_lt _ (by decide)), hback]

/-- A right rotation is a left rotation (rule R102), so the laws below are proved for left rotations. -/
theorem rotr8_eq_rotl8 (v : Byte) {n : Nat} (hn : n < 8) : rotr8 v n = rotl8 v ((8 - n) % 8) := by
  apply BitVec.eq_of_getLsbD_eq
  intro b hb
  have hsource : (b + n) % 8 = (b + (8 - (8 - n) % 8)) % 8 := by omega
  rw [getLsbD_rotr8 v n b hn hb, getLsbD_rotl8 v _ b (Nat.mod_lt _ (by decide)) hb, hsource]

/-- Two rotations in a row are one by the sum (rule R10). -/
theorem rotl8_rotl8 (v : Byte) {m n : Nat} (hm : m < 8) (hn : n < 8) : rotl8 (rotl8 v m) n = rotl8 v ((m + n) % 8) := by
  apply BitVec.eq_of_getLsbD_eq
  intro b hb
  have hsource : ((b + (8 - n)) % 8 + (8 - m)) % 8 = (b + (8 - (m + n) % 8)) % 8 := by omega
  have hmod (x : Nat) : x % 8 < 8 := Nat.mod_lt x (by decide)
  rw [getLsbD_rotl8 _ n b hn hb, getLsbD_rotl8 v m _ hm (hmod _), getLsbD_rotl8 v _ b (hmod _) hb, hsource]

theorem rotr8_rotl8 (v : Byte) {n : Nat} (hn : n < 8) : rotr8 (rotl8 v n) n = v := by
  have hround : (n + (8 - n) % 8) % 8 = 0 := by omega
  rw [rotr8_eq_rotl8 _ hn, rotl8_rotl8 v hn (Nat.mod_lt _ (by decide)), hround, rotl8_zero]

theorem rotl8_rotr8 (v : Byte) {n : Nat} (hn : n < 8) : rotl8 (rotr8 v n) n = v := by
  have hround : ((8 - n) % 8 + n) % 8 = 0 := by omega
  rw [rotr8_eq_rotl8 _ hn, rotl8_rotl8 v (Nat.mod_lt _ (by decide)) hn, hround, rotl8_zero]

@[simp] theorem rotl8_of_zero (n : Nat) : rotl8 0#8 n = 0#8 := by simp [rotl8]

/-- A rotation distributes over an exclusive or. -/
theorem rotl8_xor (a b : Byte) {n : Nat} (hn : n < 8) : rotl8 (a ^^^ b) n = rotl8 a n ^^^ rotl8 b n := by
  apply BitVec.eq_of_getLsbD_eq
  intro j hj
  rw [BitVec.getLsbD_xor, getLsbD_rotl8 _ n j hn hj, getLsbD_rotl8 _ n j hn hj, getLsbD_rotl8 _ n j hn hj, BitVec.getLsbD_xor]

/-- The indices read round the end are the rotated list of indices. -/
theorem map_add_mod_range (n m : Nat) : (List.range n).map (fun j => (j + m) % n) = (List.range n).rotate m :=
  List.ext_getElem (by simp) fun j _ _ => by simp [List.getElem_rotate]

/-- A rotation keeps the number of one bits: it reads the same bits in a rotated order. -/
theorem countP_getLsbD_rotl8 (v : Byte) {n : Nat} (hn : n < 8) :
    (List.range 8).countP (fun j => (rotl8 v n).getLsbD j) = (List.range 8).countP (fun j => v.getLsbD j) :=
  calc (List.range 8).countP (fun j => (rotl8 v n).getLsbD j)
      = (List.range 8).countP (fun j => v.getLsbD ((j + (8 - n)) % 8)) :=
        List.countP_congr fun j hj => by rw [getLsbD_rotl8 v n j hn (List.mem_range.mp hj)]
    _ = ((List.range 8).rotate (8 - n)).countP (fun j => v.getLsbD j) := by
        rw [← map_add_mod_range, List.countP_map]; rfl
    _ = (List.range 8).countP (fun j => v.getLsbD j) := (List.rotate_perm _ _).countP_eq _

/-! ### The layers, byte by byte and bit by bit -/

theorem byteAt_perm (s : Word) {p : Nat} (hp : p < 16) : byteAt (perm s) p = rotl8 (byteAt s p) (pshift p) :=
  byteAt_packLanes (fun p => rotl8 (byteAt s p) (pshift p)) p hp

theorem byteAt_invPerm (s : Word) {p : Nat} (hp : p < 16) : byteAt (invPerm s) p = rotr8 (byteAt s p) (pshift p) :=
  byteAt_packLanes (fun p => rotr8 (byteAt s p) (pshift p)) p hp

/-- `INVPERM` by left rotations (rule R102). -/
theorem byteAt_invPerm_rotl8 (s : Word) {p : Nat} (hp : p < 16) :
    byteAt (invPerm s) p = rotl8 (byteAt s p) ((8 - pshift p) % 8) := by
  rw [byteAt_invPerm s hp, rotr8_eq_rotl8 _ (pshift_lt p)]

/-- A bit of a value is a bit of one of its bytes (rule R9). -/
theorem getLsbD_eq_getLsbD_byteAt (v : Word) (p : Nat) {k : Nat} (hk : k < 8) :
    v.getLsbD (8 * p + k) = (byteAt v p).getLsbD k := by
  rw [getLsbD_byteAt, decide_eq_true hk, Bool.true_and]

/-- A byte that `t` holds rotated left by n has bit k of `s` at bit `(k + n) mod 8`. -/
theorem getLsbD_of_byteAt_eq_rotl8 {s t : Word} {p n k : Nat} (hn : n < 8) (hk : k < 8)
    (h : byteAt t p = rotl8 (byteAt s p) n) : t.getLsbD (8 * p + (k + n) % 8) = s.getLsbD (8 * p + k) := by
  rw [getLsbD_eq_getLsbD_byteAt t p (Nat.mod_lt _ (by decide)), h, getLsbD_rotl8_add _ hn hk, getLsbD_eq_getLsbD_byteAt s p hk]

/-- The wiring of `PERM` (rule R103). -/
theorem getLsbD_perm (s : Word) {p k : Nat} (hp : p < 16) (hk : k < 8) :
    (perm s).getLsbD (8 * p + (k + pshift p) % 8) = s.getLsbD (8 * p + k) :=
  getLsbD_of_byteAt_eq_rotl8 (pshift_lt p) hk (byteAt_perm s hp)

/-- The wiring of `INVPERM` (rule R103). -/
theorem getLsbD_invPerm (s : Word) {p k : Nat} (hp : p < 16) (hk : k < 8) :
    (invPerm s).getLsbD (8 * p + (k + (8 - pshift p)) % 8) = s.getLsbD (8 * p + k) := by
  rw [← Nat.add_mod_mod]
  exact getLsbD_of_byteAt_eq_rotl8 (Nat.mod_lt _ (by decide)) hk (byteAt_invPerm_rotl8 s hp)

/-! ### The laws of the layers, each from the law of the rotation in every lane -/

@[simp] theorem invPerm_perm (s : Word) : invPerm (perm s) = s :=
  eq_of_byteAt_eq fun p hp => by rw [byteAt_invPerm _ hp, byteAt_perm _ hp, rotr8_rotl8 _ (pshift_lt p)]

@[simp] theorem perm_invPerm (s : Word) : perm (invPerm s) = s :=
  eq_of_byteAt_eq fun p hp => by rw [byteAt_perm _ hp, byteAt_invPerm _ hp, rotl8_rotr8 _ (pshift_lt p)]

theorem perm_bijective : Function.Bijective perm :=
  Function.bijective_iff_has_inverse.mpr ⟨invPerm, invPerm_perm, perm_invPerm⟩

theorem invPerm_bijective : Function.Bijective invPerm :=
  Function.bijective_iff_has_inverse.mpr ⟨perm, perm_invPerm, invPerm_perm⟩

theorem perm_xor (a b : Word) : perm (a ^^^ b) = perm a ^^^ perm b :=
  eq_of_byteAt_eq fun p hp => by
    rw [byteAt_xor, byteAt_perm _ hp, byteAt_perm _ hp, byteAt_perm _ hp, byteAt_xor, rotl8_xor _ _ (pshift_lt p)]

/-- The inverse of an XOR-linear function is XOR-linear. -/
theorem invPerm_xor (a b : Word) : invPerm (a ^^^ b) = invPerm a ^^^ invPerm b :=
  perm_bijective.injective (by simp only [perm_xor, perm_invPerm])

/-- The lanes are independent. -/
theorem byteAt_perm_congr {a b : Word} {p : Nat} (hp : p < 16) (h : byteAt a p = byteAt b p) :
    byteAt (perm a) p = byteAt (perm b) p := by
  rw [byteAt_perm a hp, byteAt_perm b hp, h]

/-- The lanes are independent. -/
theorem byteAt_invPerm_congr {a b : Word} {p : Nat} (hp : p < 16) (h : byteAt a p = byteAt b p) :
    byteAt (invPerm a) p = byteAt (invPerm b) p := by
  rw [byteAt_invPerm a hp, byteAt_invPerm b hp, h]

/-- Only positions 0 and 8 have shift 0, and a zero byte does not show its rotation (rule R101). -/
theorem perm_eq_self {s : Word} (h : ∀ p, p < 16 → p ≠ 0 → p ≠ 8 → byteAt s p = 0#8) : perm s = s := by
  refine eq_of_byteAt_eq fun p hp => ?_
  rw [byteAt_perm s hp]
  by_cases hfix : p = 0 ∨ p = 8
  · have hshift : pshift p = 0 := by obtain rfl | rfl := hfix <;> rfl
    rw [hshift, rotl8_zero]
  · obtain ⟨h0, h8⟩ := not_or.mp hfix
    rw [h p hp h0 h8, rotl8_of_zero]

theorem invPerm_eq_self_of_perm_eq_self {s : Word} (h : perm s = s) : invPerm s = s :=
  calc invPerm s = invPerm (perm s) := by rw [h]
    _ = s := invPerm_perm s

/-! ### The bytes of the block's buffer -/

/-- Byte j of a buffer stands at position `15 - j` (rule R41). -/
theorem getElem?_bytes16 (v : Word) {j : Nat} (hj : j < 16) : (bytes16 v)[j]? = some (byteAt v (15 - j)) := by
  have hlt : j < (bytes16 v).length := by rwa [length_bytes16]
  have hpos : 120 - 8 * j = 8 * (15 - j) := by omega
  rw [List.getElem?_eq_getElem hlt, getElem_bytes16, hpos, byteAt]

/-- The rotation of byte j of the buffer (rule R104). -/
theorem getElem?_bytes16_perm (s : Word) {j : Nat} (hj : j < 16) :
    (bytes16 (perm s))[j]? = ((bytes16 s)[j]?).map (fun b => rotl8 b (pshift (15 - j))) := by
  rw [getElem?_bytes16 _ hj, getElem?_bytes16 s hj, byteAt_perm s (by omega), Option.map_some]

/-! ### The obligations -/

/-- Settles O40: the bytes by `byteAt_perm` and `byteAt_invPerm`, the unchanged values by `perm_eq_self`, the sixteen amounts, the
corner cases and the worked examples by evaluation. -/
theorem permutationByteByByte : Obligations.PermutationByteByByte :=
  ⟨by decide, fun _ _ => rfl,
    fun s p hp => ⟨byteAt_perm s hp, byteAt_invPerm s hp, rotr8_eq_rotl8 _ (pshift_lt p)⟩,
    fun _ h => ⟨perm_eq_self h, invPerm_eq_self_of_perm_eq_self (perm_eq_self h)⟩,
    by decide, by decide, by decide, by decide, by decide⟩

/-- Settles O41: the wirings by `getLsbD_perm` and `getLsbD_invPerm`, the linearity by `perm_xor` and `invPerm_xor`. -/
theorem permutationBitWiring : Obligations.PermutationBitWiring :=
  ⟨fun s _ _ hp hk => ⟨getLsbD_perm s hp hk, getLsbD_invPerm s hp hk⟩, fun a b => ⟨perm_xor a b, invPerm_xor a b⟩⟩

/-- Settles O42: the bytes by `getElem?_bytes16_perm`; the wrong reading would need an even number, 6j, to be 45 modulo 8. -/
theorem permutationByBufferIndex : Obligations.PermutationByBufferIndex :=
  ⟨by decide, fun s _ hj => getElem?_bytes16_perm s hj, fun j hj => by omega⟩

/-- Settles O43, law by law; the one bits are counted in every lane by `countP_getLsbD_rotl8`. -/
theorem permutationLaws : Obligations.PermutationLaws := by
  refine ⟨fun s => ⟨invPerm_perm s, perm_invPerm s⟩, perm_bijective, invPerm_bijective,
    fun _ _ _ hp h => ⟨byteAt_perm_congr hp h, byteAt_invPerm_congr hp h⟩, fun s p hp => ⟨?_, ?_⟩⟩
  · rw [byteAt_perm s hp, countP_getLsbD_rotl8 _ (pshift_lt p)]
  · rw [byteAt_invPerm_rotl8 s hp, countP_getLsbD_rotl8 _ (Nat.mod_lt _ (by decide))]

end Sys2Proof.Machine

/-! PROOFS. The family of spec/43_block_core.md, first part: the rounds (rules R110 to R112), the block functions round by round
(rules R113 and R114), their inverse laws (rule R117), and the cipher of one byte (rule R118). -/

namespace Sys2Proof.Machine

/-! ### The rounds -/

@[simp] theorem ark_ark (s k : Word) : ark (ark s k) k = s := by
  rw [ark, ark, BitVec.xor_assoc, BitVec.xor_self, BitVec.xor_zero]

@[simp] theorem drnd_ernd (s k : Word) : drnd (ernd s k) k = s := by
  rw [drnd, ernd, ark_ark, invPerm_perm, invSub_sub]

@[simp] theorem ernd_drnd (s k : Word) : ernd (drnd s k) k = s := by
  rw [ernd, drnd, sub_invSub, perm_invPerm, ark_ark]

/-- The worked example of rule R111, which rule R112 undoes. -/
theorem ernd_example :
    ernd 0x00102030405060708090A0B0C0D0E0F0#128 0x21406080A0C0E10121416181A1C1E000#128 =
      0xB831564B99C384DDA6F21F4939DE002C#128 := by decide

/-! ### The block functions, round by round -/

/-- The block after `r` rounds of an encryption (rule R113). -/
def encState (rk : Schedule) (b : Word) (r : Nat) : Word := (roundsUp.take r).foldl (fun s i => ernd s rk[i]) (ark b rk[0])

/-- The block after `r` rounds of a decryption (rule R114). -/
def decState (rk : Schedule) (c : Word) (r : Nat) : Word := (roundsDown.take r).foldl (fun s i => drnd s rk[i]) c

theorem encryptBlock_eq_encState (rk : Schedule) (b : Word) : encryptBlock rk b = encState rk b 10 := rfl

theorem decryptBlock_eq_decState (rk : Schedule) (c : Word) : decryptBlock rk c = ark (decState rk c 10) rk[0] := rfl

theorem getElem_roundsUp {r : Nat} (hr : r < roundsUp.length) : roundsUp[r] = Fin.ofNat 11 (r + 1) := by
  have hlt : r < 10 := hr
  interval_cases r <;> rfl

theorem getElem_roundsDown {r : Nat} (hr : r < roundsDown.length) : roundsDown[r] = Fin.ofNat 11 (10 - r) := by
  have hlt : r < 10 := hr
  interval_cases r <;> rfl

theorem encState_succ (rk : Schedule) (b : Word) {r : Nat} (hr : r < 10) :
    encState rk b (r + 1) = ernd (encState rk b r) rk[r + 1] := by
  have hlen : r < roundsUp.length := hr
  have hidx : (r + 1) % 11 = r + 1 := Nat.mod_eq_of_lt (by omega)
  rw [encState, List.take_succ_eq_append_getElem hlen, List.foldl_concat, getElem_roundsUp]
  simp only [Fin.getElem_fin, Fin.val_ofNat, hidx, encState]

theorem decState_succ (rk : Schedule) (c : Word) {r : Nat} (hr : r < 10) :
    decState rk c (r + 1) = drnd (decState rk c r) rk[10 - r] := by
  have hlen : r < roundsDown.length := hr
  have hidx : (10 - r) % 11 = 10 - r := Nat.mod_eq_of_lt (by omega)
  rw [decState, List.take_succ_eq_append_getElem hlen, List.foldl_concat, getElem_roundsDown]
  simp only [Fin.getElem_fin, Fin.val_ofNat, hidx, decState]

/-! ### The inverse laws -/

/-- Steps undone one by one, the last first. -/
theorem foldl_reverse_foldl {α β : Type} {f g : α → β → α} (h : ∀ a i, g (f a i) i = a) (l : List β) (a : α) :
    l.reverse.foldl g (l.foldl f a) = a := by
  induction l generalizing a with
  | nil => rfl
  | cons i l ih => rw [List.reverse_cons, List.foldl_concat, List.foldl_cons, ih, h]

theorem reverse_roundsUp : roundsUp.reverse = roundsDown := rfl

theorem reverse_roundsDown : roundsDown.reverse = roundsUp := rfl

@[simp] theorem decryptBlock_encryptBlock (rk : Schedule) (b : Word) : decryptBlock rk (encryptBlock rk b) = b := by
  have hround (s : Word) (r : Fin 11) : drnd (ernd s rk[r]) rk[r] = s := drnd_ernd s rk[r]
  rw [decryptBlock, encryptBlock, ← reverse_roundsUp, foldl_reverse_foldl hround, ark_ark]

@[simp] theorem encryptBlock_decryptBlock (rk : Schedule) (c : Word) : encryptBlock rk (decryptBlock rk c) = c := by
  have hround (s : Word) (r : Fin 11) : ernd (drnd s rk[r]) rk[r] = s := ernd_drnd s rk[r]
  rw [encryptBlock, decryptBlock, ark_ark, ← reverse_roundsDown, foldl_reverse_foldl hround]

theorem encryptBlock_bijective (rk : Schedule) : Function.Bijective (encryptBlock rk) :=
  Function.bijective_iff_has_inverse.mpr ⟨decryptBlock rk, decryptBlock_encryptBlock rk, encryptBlock_decryptBlock rk⟩

theorem decryptBlock_bijective (rk : Schedule) : Function.Bijective (decryptBlock rk) :=
  Function.bijective_iff_has_inverse.mpr ⟨encryptBlock rk, encryptBlock_decryptBlock rk, decryptBlock_encryptBlock rk⟩

/-- The worked example of rule R113. -/
theorem encryptBlock_example :
    encryptBlock (expand 0x000102030405060708090A0B0C0D0E0F#128) 0x00112233445566778899AABBCCDDEEFF#128 =
      0x39A57FC2B3E581411C7A7AE096EBCE12#128 := by decide +kernel

/-- The worked example of rule R114, which undoes the one of rule R113. -/
theorem decryptBlock_example :
    decryptBlock (expand 0x000102030405060708090A0B0C0D0E0F#128) 0x39A57FC2B3E581411C7A7AE096EBCE12#128 =
      0x00112233445566778899AABBCCDDEEFF#128 := by
  rw [← encryptBlock_example, decryptBlock_encryptBlock]

/-! ### The cipher of one byte -/

/-- A table applied to both nibbles of a byte. -/
def mapNibbles (f : Nibble → Nibble) (x : Byte) : Byte := (f (x.extractLsb' 4 4) ++ f (x.extractLsb' 0 4) : BitVec (4 + 4))

/-- What `ERND` does at byte position `p` (rule R118). -/
def byteErnd (p : Nat) (x k : Byte) : Byte := rotl8 (mapNibbles sbox x) (pshift p) ^^^ k

/-- What `DRND` does at byte position `p` (rule R118). -/
def byteDrnd (p : Nat) (x k : Byte) : Byte := mapNibbles invSbox (rotr8 (x ^^^ k) (pshift p))

/-- The 8-bit computation of rule R118. -/
def byteEncrypt (rk : Schedule) (p : Nat) (b : Byte) : Byte :=
  roundsUp.foldl (fun x r => byteErnd p x (byteAt rk[r] p)) (b ^^^ byteAt rk[0] p)

/-- What decryption does at byte position `p`. -/
def byteDecrypt (rk : Schedule) (p : Nat) (c : Byte) : Byte :=
  roundsDown.foldl (fun x r => byteDrnd p x (byteAt rk[r] p)) c ^^^ byteAt rk[0] p

/-- A layer that applies a table to every nibble applies it to both nibbles of every byte. -/
theorem byteAt_of_nib_eq {s t : Word} {f : Nibble → Nibble} (h : ∀ i, i < 32 → nib t i = f (nib s i)) {p : Nat} (hp : p < 16) :
    byteAt t p = mapNibbles f (byteAt s p) := by
  have hlow : (byteAt s p).extractLsb' 0 4 = nib s (2 * p) := by
    rw [byteAt_eq_nib_append, BitVec.extractLsb'_append_eq_right]
  have hhigh : (byteAt s p).extractLsb' 4 4 = nib s (2 * p + 1) := by
    rw [byteAt_eq_nib_append, BitVec.extractLsb'_append_eq_left]
  rw [mapNibbles, hlow, hhigh, byteAt_eq_nib_append, h _ (by omega), h _ (by omega)]

theorem byteAt_ark (s k : Word) (p : Nat) : byteAt (ark s k) p = byteAt s p ^^^ byteAt k p := byteAt_xor s k p

theorem byteAt_ernd (s k : Word) {p : Nat} (hp : p < 16) : byteAt (ernd s k) p = byteErnd p (byteAt s p) (byteAt k p) := by
  rw [ernd, byteAt_ark, byteAt_perm _ hp, byteAt_of_nib_eq (fun _ hi => nib_sub s hi) hp, byteErnd]

theorem byteAt_drnd (s k : Word) {p : Nat} (hp : p < 16) : byteAt (drnd s k) p = byteDrnd p (byteAt s p) (byteAt k p) := by
  rw [drnd, byteAt_of_nib_eq (fun _ hi => nib_invSub _ hi) hp, byteAt_invPerm _ hp, byteAt_ark, byteDrnd]

theorem byteAt_encryptBlock (rk : Schedule) (b : Word) {p : Nat} (hp : p < 16) :
    byteAt (encryptBlock rk b) p = byteEncrypt rk p (byteAt b p) := by
  rw [encryptBlock, byteEncrypt, ← byteAt_ark]
  exact (List.foldl_hom (byteAt · p) fun s r => (byteAt_ernd s rk[r] hp).symm).symm

theorem byteAt_decryptBlock (rk : Schedule) (c : Word) {p : Nat} (hp : p < 16) :
    byteAt (decryptBlock rk c) p = byteDecrypt rk p (byteAt c p) := by
  rw [decryptBlock, byteDecrypt, byteAt_ark]
  exact congrArg (· ^^^ _) (List.foldl_hom (byteAt · p) fun s r => (byteAt_drnd s rk[r] hp).symm).symm

theorem byteDecrypt_congr {rk rk' : Schedule} {p : Nat} (h : ∀ r : Fin 11, byteAt rk[r] p = byteAt rk'[r] p) :
    byteDecrypt rk p = byteDecrypt rk' p := by
  have hzero : byteAt rk[0] p = byteAt rk'[0] p := h 0
  funext c
  simp only [byteDecrypt, h, hzero]

/-- The block that has the byte `b` at every position. -/
theorem byteAt_packLanes_const (b : Byte) {p : Nat} (hp : p < 16) : byteAt (packLanes (fun _ => b) 16) p = b :=
  byteAt_packLanes (fun _ => b) p hp

/-- A byte is a byte of a block, where the inverse law of the blocks (rule R117) gives it back. -/
theorem byteDecrypt_byteEncrypt (rk : Schedule) {p : Nat} (hp : p < 16) (b : Byte) :
    byteDecrypt rk p (byteEncrypt rk p b) = b := by
  rw [← byteAt_packLanes_const b hp, ← byteAt_encryptBlock rk _ hp, ← byteAt_decryptBlock rk _ hp, decryptBlock_encryptBlock]

theorem byteEncrypt_byteDecrypt (rk : Schedule) {p : Nat} (hp : p < 16) (c : Byte) :
    byteEncrypt rk p (byteDecrypt rk p c) = c := by
  rw [← byteAt_packLanes_const c hp, ← byteAt_decryptBlock rk _ hp, ← byteAt_encryptBlock rk _ hp, encryptBlock_decryptBlock]

theorem byteEncrypt_bijective (rk : Schedule) {p : Nat} (hp : p < 16) : Function.Bijective (byteEncrypt rk p) :=
  Function.bijective_iff_has_inverse.mpr ⟨byteDecrypt rk p, byteDecrypt_byteEncrypt rk hp, byteEncrypt_byteDecrypt rk hp⟩

/-! ### The obligations -/

/-- Settles O44: the formulas are the definitions, the inverse laws by name, the worked examples by evaluation and the last one by
`drnd_ernd`. -/
theorem roundsAreInverse : Obligations.RoundsAreInverse :=
  ⟨fun s k => ⟨rfl, ark_ark s k, rfl, rfl, drnd_ernd s k, ernd_drnd s k⟩, by decide, by decide, by decide, ernd_example,
    by rw [← ernd_example, drnd_ernd]⟩

/-- Settles O45: the rounds are those of `encState`, and those of `decState` counted down from 10. -/
theorem blockFunctionsRoundByRound : Obligations.BlockFunctionsRoundByRound := by
  refine ⟨fun rk b => ⟨encState rk b, rfl, fun r hr => encState_succ rk b hr, rfl⟩,
    fun rk c => ⟨fun r => decState rk c (10 - r), rfl, fun r hr => ?_, rfl⟩, encryptBlock_example, decryptBlock_example⟩
  have hround : 10 - r = 10 - (r + 1) + 1 := by omega
  have hkey : 10 - (10 - (r + 1)) = r + 1 := by omega
  simp only [hround, decState_succ rk c (show 10 - (r + 1) < 10 by omega), hkey]

/-- Settles O46, law by law. -/
theorem blockFunctionsAreInverse : Obligations.BlockFunctionsAreInverse := fun rk =>
  ⟨fun x => ⟨decryptBlock_encryptBlock rk x, encryptBlock_decryptBlock rk x⟩, encryptBlock_bijective rk,
    decryptBlock_bijective rk⟩

/-- Settles O47: `byteEncrypt` is the rule's 8-bit computation, and the byte of a decryption is `byteDecrypt` of the same bytes. -/
theorem everyByteIsItsOwnCipher : Obligations.EveryByteIsItsOwnCipher := by
  refine ⟨fun rk b p hp => byteAt_encryptBlock rk b hp, fun rk rk' c c' p hp hrk hc => ?_,
    fun rk p hp => byteEncrypt_bijective rk hp, encryptBlock_example, by decide +kernel⟩
  rw [byteAt_decryptBlock rk c hp, byteAt_decryptBlock rk' c' hp, byteDecrypt_congr hrk, hc]

end Sys2Proof.Machine

/-! PROOFS. The family of spec/43_block_core.md, second part: the rows of the step machine (rule R126), the runs of `ENC` and `DEC`
from their accept steps to their responses (rules R120 and R121), and taking the response (rule R122). -/

namespace Sys2Proof.Machine

variable {s : State}

/-! ### The rows that accept a command -/

/-- The command on the command ports, where `rst = 0` and `cmd_valid = 1` (rule R61). -/
theorem presented_of_cmdValid (hr : s.ports.rst = false) (hv : s.ports.cmdValid = true) :
    s.presented = some (decodeOp s.ports.cmdOp s.ports.cmdData) := by
  rw [State.presented, if_pos ⟨hr, hv⟩, decodeCmd_portWord]

/-- Rows 3 to 7: the command of the opcode on the command ports is accepted. -/
theorem step_of_idle_cmdOp {op : BitVec 2} (hr : s.ports.rst = false) (hp : s.phase = .idle) (hv : s.ports.cmdValid = true)
    (hop : s.ports.cmdOp = op) : step s = .next (accept (decodeOp op s.ports.cmdData) s).afterEdge := by
  rw [step_of_idle_presented hp (presented_of_cmdValid hr hv), hop]

theorem acceptEnc_of_keyValid (b : Word) (hk : s.keyValid = true) :
    acceptEnc b s = { s with S := b ^^^ s.RK[0], rnd := 1#4, phase := .encr } := if_pos hk

theorem acceptDec_of_keyValid (c : Word) (hk : s.keyValid = true) :
    acceptDec c s = { s with S := c, rnd := 10#4, phase := .decr } := if_pos hk

theorem acceptEnc_of_no_key (b : Word) (hk : s.keyValid = false) : acceptEnc b s = raiseError statusErrNoKey s :=
  if_neg (by simp [hk])

theorem acceptDec_of_no_key (c : Word) (hk : s.keyValid = false) : acceptDec c s = raiseError statusErrNoKey s :=
  if_neg (by simp [hk])

/-- The accept step of `LDKEY`, as row 3 writes it. -/
theorem acceptLdkey_eq (k : Word) (s : State) :
    acceptLdkey k s = { s with RK := s.RK.set 0 k, keyValid := false, S := 0#128, rnd := 1#4, phase := .kexp } := by
  rw [acceptLdkey, writeRK_of_lt s k (by decide)]

/-! ### The rows of the busy phases -/

theorem rnd_eq_ofNat {n : Nat} (h : s.rnd.toNat = n) : s.rnd = BitVec.ofNat 4 n := by
  rw [← h, BitVec.ofNat_toNat, BitVec.setWidth_eq]

/-- Row 8. -/
theorem step_of_kexp (hr : s.ports.rst = false) (hp : s.phase = .kexp) (i : Nat) (hi : i < 10) (hrnd : s.rnd.toNat = i + 1) :
    step s = .next { s with
      RK := s.RK.set (i + 1) (kstep s.RK[i] (i + 1))
      keyValid := if i + 1 = 10 then true else s.keyValid
      rnd := if i + 1 = 10 then 0#4 else BitVec.ofNat 4 (i + 2)
      rstat := if i + 1 = 10 then statusOk else s.rstat
      phase := if i + 1 = 10 then .resp else .kexp
      pins := s.pins.tail
      edges := s.edges + 1 } := by
  by_cases hlast : i + 1 = 10
  · obtain rfl : i = 9 := by omega
    rw [step_of_kexp_last hp hr hrnd, writeRK_of_lt s _ (by decide)]
    rfl
  · rw [step_of_kexp_mid hp hr hrnd (by omega), writeRK_of_lt s _ (by omega), rnd_eq_ofNat hrnd, ← BitVec.ofNat_add]
    simp only [if_neg hlast, ← hp, State.afterEdge]

/-- Row 9. -/
theorem step_of_encr (hr : s.ports.rst = false) (hp : s.phase = .encr) (r : Nat) (hlt : r < 11) (hrnd : s.rnd.toNat = r) :
    step s = .next { s with
      S := ernd s.S s.RK[r]
      rnd := if r = 10 then 0#4 else BitVec.ofNat 4 (r + 1)
      rstat := if r = 10 then statusOk else s.rstat
      phase := if r = 10 then .resp else .encr
      pins := s.pins.tail
      edges := s.edges + 1 } := by
  rw [step_of_busy (by simp [hp]) hr, engineEdge, hp]
  by_cases hlast : r = 10
  · subst hlast
    simp only [encRoundStep_last hrnd, passEdge, State.afterEdge, if_true]
  · have hnext : s.rnd + 1#4 = BitVec.ofNat 4 (r + 1) := by rw [rnd_eq_ofNat hrnd, BitVec.ofNat_add]
    simp only [encRoundStep_mid (show s.rnd.toNat < 10 by omega), passEdge, State.afterEdge, if_neg hlast, ← hp, hrnd, hnext]

/-- Row 10. -/
theorem step_of_decr (hr : s.ports.rst = false) (hp : s.phase = .decr) (r : Nat) (hlt : r < 11) (hrnd : s.rnd.toNat = r) :
    step s = .next { s with
      S := if r = 0 then s.S ^^^ s.RK[0] else drnd s.S s.RK[r]
      rnd := BitVec.ofNat 4 (r - 1)
      rstat := if r = 0 then statusOk else s.rstat
      phase := if r = 0 then .resp else .decr
      pins := s.pins.tail
      edges := s.edges + 1 } := by
  rw [step_of_busy (by simp [hp]) hr, engineEdge, hp]
  cases r with
  | zero =>
    simp only [decRoundStep_last hrnd, passEdge, State.afterEdge, ark, if_true, rnd_eq_ofNat hrnd]
  | succ r =>
    have hnext : s.rnd - 1#4 = BitVec.ofNat 4 r := by rw [rnd_eq_ofNat hrnd, BitVec.ofNat_add, BitVec.add_sub_cancel]
    simp only [decRoundStep_mid (show s.rnd.toNat ≠ 0 by omega) (by omega), passEdge, State.afterEdge, if_neg r.succ_ne_zero,
      ← hp, hrnd, hnext, Nat.add_sub_cancel]

/-- Row 11. -/
theorem step_of_resp_ready (hr : s.ports.rst = false) (hp : s.phase = .resp) (hready : s.ports.rspReady = true) :
    step s = .next (takeResponse s).afterEdge := by
  rw [step_of_busy (by simp [hp]) hr, engineEdge, hp]
  simp only [hready, if_true, passEdge]

/-- Row 12. -/
theorem step_of_resp_wait (hr : s.ports.rst = false) (hp : s.phase = .resp) (hready : s.ports.rspReady = false) :
    step s = .next s.afterEdge := by
  rw [step_of_busy (by simp [hp]) hr, engineEdge, hp]
  simp only [hready, Bool.false_eq_true, if_false, passEdge]

/-! ### Taking the response -/

theorem taken_of_resp_ready (hr : s.ports.rst = false) (hp : s.phase = .resp) (hready : s.ports.rspReady = true) :
    s.taken = some { status := s.rstat, data := s.S } := by
  rw [State.taken, if_pos ⟨hr, rspValid_iff.mpr hp, hready⟩, State.response, rspStatus_of_resp hp, rspData_of_resp hp]

theorem taken_of_not_ready (hready : s.ports.rspReady = false) : s.taken = none :=
  if_neg fun ⟨_, _, h⟩ => by simp [hready] at h

/-! ### The run of `ENC` -/

/-- The accept step of `ENC b` and `r` rounds: `S` holds the state after round `r` (rule R120). -/
theorem run_enc_encr {b : Word} (hp : s.phase = .idle) (hk : s.keyValid = true) (hc : s.presented = some (.enc b)) {r : Nat}
    (hlt : r < 10) (hr : s.ResetLow (r + 1)) :
    Sys2Proof.core.run (r + 1) s = .next { s with
      S := encState s.RK b r, rnd := BitVec.ofNat 4 (r + 1), phase := .encr,
      pins := s.pins.drop (r + 1), edges := s.edges + (r + 1) } := by
  induction r with
  | zero =>
    rw [run_succ_of_step (step_of_idle_presented hp hc), run_zero, accept, acceptEnc_of_keyValid b hk, List.drop_one]
    rfl
  | succ r ih =>
    have hrun := ih (by omega) fun j hj => hr j (by omega)
    have hrnd : (BitVec.ofNat 4 (r + 1)).toNat = r + 1 := by rw [BitVec.toNat_ofNat]; omega
    rw [run_snoc hrun (step_of_encr (rst_of_run hrun hr) rfl (r + 1) (by omega) hrnd), encState_succ s.RK b (by omega)]
    simp only [if_neg (show r + 1 ≠ 10 by omega), List.tail_drop, Nat.add_assoc]

/-- The whole run of `ENC b` with a key. -/
theorem run_enc {b : Word} (hp : s.phase = .idle) (hk : s.keyValid = true) (hc : s.presented = some (.enc b))
    (hr : s.ResetLow 11) :
    Sys2Proof.core.run 11 s = .next { s with
      S := encryptBlock s.RK b, rnd := 0#4, rstat := statusOk, phase := .resp,
      pins := s.pins.drop 11, edges := s.edges + 11 } := by
  have hrun := run_enc_encr hp hk hc (r := 9) (by decide) fun j hj => hr j (by omega)
  rw [run_snoc hrun (step_of_encr (rst_of_run hrun hr) rfl 10 (by decide) rfl), encryptBlock_eq_encState,
    encState_succ s.RK b (r := 9) (by decide)]
  simp only [if_true, List.tail_drop, Nat.add_assoc]

/-! ### The run of `DEC` -/

/-- The accept step of `DEC c` and `r` rounds (rule R121); after the tenth the engine is still in `DECR`, with `rnd = 0`. -/
theorem run_dec_decr {c : Word} (hp : s.phase = .idle) (hk : s.keyValid = true) (hc : s.presented = some (.dec c)) {r : Nat}
    (hlt : r < 11) (hr : s.ResetLow (r + 1)) :
    Sys2Proof.core.run (r + 1) s = .next { s with
      S := decState s.RK c r, rnd := BitVec.ofNat 4 (10 - r), phase := .decr,
      pins := s.pins.drop (r + 1), edges := s.edges + (r + 1) } := by
  induction r with
  | zero =>
    rw [run_succ_of_step (step_of_idle_presented hp hc), run_zero, accept, acceptDec_of_keyValid c hk, List.drop_one]
    rfl
  | succ r ih =>
    have hrun := ih (by omega) fun j hj => hr j (by omega)
    have hrnd : (BitVec.ofNat 4 (10 - r)).toNat = 10 - r := by rw [BitVec.toNat_ofNat]; omega
    rw [run_snoc hrun (step_of_decr (rst_of_run hrun hr) rfl (10 - r) (by omega) hrnd), decState_succ s.RK c (by omega)]
    simp only [if_neg (show 10 - r ≠ 0 by omega), Nat.sub_sub, List.tail_drop, Nat.add_assoc]

/-- The whole run of `DEC c` with a key. -/
theorem run_dec {c : Word} (hp : s.phase = .idle) (hk : s.keyValid = true) (hc : s.presented = some (.dec c))
    (hr : s.ResetLow 12) :
    Sys2Proof.core.run 12 s = .next { s with
      S := decryptBlock s.RK c, rnd := 0#4, rstat := statusOk, phase := .resp,
      pins := s.pins.drop 12, edges := s.edges + 12 } := by
  have hrun := run_dec_decr hp hk hc (r := 10) (by decide) fun j hj => hr j (by omega)
  rw [run_snoc hrun (step_of_decr (rst_of_run hrun hr) rfl 0 (by decide) rfl), decryptBlock_eq_decState, ark]
  simp only [if_true, List.tail_drop, Nat.add_assoc]

/-! ### The number of steps of each command -/

/-- The response phase is reached after the accepting edge and exactly `n` further ones; between, the engine is busy. -/
def State.RespondsAfter (s : State) (n : Nat) : Prop :=
  (∃ t : State, Sys2Proof.core.run (n + 1) s = .next t ∧ t.phase = .resp) ∧
    ∀ k, k < n → ∃ u : State, Sys2Proof.core.run (k + 1) s = .next u ∧ u.phase ≠ .idle ∧ u.phase ≠ .resp

/-- The error paths. -/
theorem respondsAfter_zero {i : Instr} (hp : s.phase = .idle) (hc : s.presented = some i) (ha : (accept i s).phase = .resp) :
    s.RespondsAfter 0 :=
  ⟨⟨_, run_succ_of_step (step_of_idle_presented hp hc), ha⟩, nofun⟩

theorem respondsAfter_ldkey {k : Word} (hp : s.phase = .idle) (hc : s.presented = some (.ldkey k)) (hr : s.ResetLow 11) :
    s.RespondsAfter 10 := by
  refine ⟨⟨_, run_ldkey hp hc hr, rfl⟩, fun n hn => ?_⟩
  obtain ⟨_, -, hrun⟩ := run_ldkey_kexp hp hc hn fun j hj => hr j (by omega)
  exact ⟨_, hrun, by simp, by simp⟩

theorem respondsAfter_enc {b : Word} (hp : s.phase = .idle) (hk : s.keyValid = true) (hc : s.presented = some (.enc b))
    (hr : s.ResetLow 11) : s.RespondsAfter 10 :=
  ⟨⟨_, run_enc hp hk hc hr, rfl⟩,
    fun _ hn => ⟨_, run_enc_encr hp hk hc hn fun j hj => hr j (by omega), by simp, by simp⟩⟩

theorem respondsAfter_dec {c : Word} (hp : s.phase = .idle) (hk : s.keyValid = true) (hc : s.presented = some (.dec c))
    (hr : s.ResetLow 12) : s.RespondsAfter 11 :=
  ⟨⟨_, run_dec hp hk hc hr, rfl⟩,
    fun _ hn => ⟨_, run_dec_decr hp hk hc hn fun j hj => hr j (by omega), by simp, by simp⟩⟩

/-- Every accepted command responds after its fixed number of steps (rule R126). -/
theorem respondsAfter_busySteps {i : Instr} (hp : s.phase = .idle) (hc : s.presented = some i)
    (hr : s.ResetLow (busySteps s.cipher i + 1)) : s.RespondsAfter (busySteps s.cipher i) := by
  cases i with
  | rsvd d => exact respondsAfter_zero hp hc rfl
  | ldkey k => exact respondsAfter_ldkey hp hc hr
  | enc b =>
    by_cases hk : s.keyValid = true
    · have hbusy : busySteps s.cipher (.enc b) = 10 := if_pos hk
      rw [hbusy] at hr ⊢
      exact respondsAfter_enc hp hk hc hr
    · have hbusy : busySteps s.cipher (.enc b) = 0 := if_neg hk
      rw [hbusy]
      exact respondsAfter_zero hp hc (by rw [accept, acceptEnc_of_no_key b (by simpa using hk), raiseError_phase])
  | dec c =>
    by_cases hk : s.keyValid = true
    · have hbusy : busySteps s.cipher (.dec c) = 11 := if_pos hk
      rw [hbusy] at hr ⊢
      exact respondsAfter_dec hp hk hc hr
    · have hbusy : busySteps s.cipher (.dec c) = 0 := if_neg hk
      rw [hbusy]
      exact respondsAfter_zero hp hc (by rw [accept, acceptDec_of_no_key c (by simpa using hk), raiseError_phase])

/-! ### The obligations -/

/-- Settles O5: each row by the lemma about it, the numbers of steps by `respondsAfter_busySteps`. -/
theorem stepMachineTable : Obligations.StepMachineTable := by
  refine ⟨fun s => ⟨step_of_reset, fun hr => ⟨fun hp hv => step_of_idle_quiet hp hr hv, fun hp hv hop => ?_,
      fun hp hv hop hk => ?_, fun hp hv hop hk => ?_, fun hp hv hop hk => ?_, step_of_idle_cmdOp hr,
      step_of_kexp hr, fun hp r hlt _ hrnd => step_of_encr hr hp r hlt hrnd, step_of_decr hr, step_of_resp_ready hr,
      step_of_resp_wait hr⟩⟩,
    fun s i hp hc hlow => respondsAfter_busySteps hp hc hlow⟩
  · rw [step_of_idle_cmdOp hr hp hv hop, decodeOp_ldkey, accept, acceptLdkey_eq, State.afterEdge]
  · rw [step_of_idle_cmdOp hr hp hv hop, decodeOp_enc, accept, acceptEnc_of_keyValid _ hk, State.afterEdge]
  · rw [step_of_idle_cmdOp hr hp hv hop, decodeOp_dec, accept, acceptDec_of_keyValid _ hk, State.afterEdge]
  · obtain hop | hop := hop
    · rw [step_of_idle_cmdOp hr hp hv hop, decodeOp_enc, accept, acceptEnc_of_no_key _ hk]
      rfl
    · rw [step_of_idle_cmdOp hr hp hv hop, decodeOp_dec, accept, acceptDec_of_no_key _ hk]
      rfl

/-- Settles O18: the accept steps by `exec_idle`, the rounds by `run_enc_encr`, the response by `run_enc`, the worked examples by
evaluation. -/
theorem encAnswersTheCiphertext : Obligations.EncAnswersTheCiphertext := by
  refine ⟨fun s b hp hk => ?_, fun _ _ _ hp hk hc hlt hr => run_enc_encr hp hk hc hlt hr,
    fun _ _ hp hk hc hr => run_enc hp hk hc hr, fun s b hp hk => ?_, by decide +kernel, encryptBlock_example⟩
  · rw [exec_idle _ hp, accept, acceptEnc_of_keyValid b hk]
  · rw [exec_idle _ hp, accept, acceptEnc_of_no_key b hk]
    rfl

/-- Settles O19: the accept steps by `exec_idle`, the rounds by `run_dec_decr`, the response by `run_dec`, the second worked example by
evaluation. -/
theorem decAnswersThePlaintext : Obligations.DecAnswersThePlaintext := by
  refine ⟨fun s c hp hk => ?_, fun _ _ _ hp hk hc hlt hr => run_dec_decr hp hk hc hlt hr,
    fun _ _ hp hk hc hr => run_dec hp hk hc hr, fun s c hp hk => ?_, decryptBlock_example, by decide +kernel⟩
  · rw [exec_idle _ hp, accept, acceptDec_of_keyValid c hk]
  · rw [exec_idle _ hp, accept, acceptDec_of_no_key c hk]
    rfl

/-- Settles O23: the response by `taken_of_resp_ready` and `taken_of_not_ready`, the next state by rows 11 and 12. -/
theorem takingTheResponse : Obligations.TakingTheResponse := fun _ hp hr =>
  ⟨fun hready => ⟨taken_of_resp_ready hr hp hready, step_of_resp_ready hr hp hready⟩,
    fun hready => ⟨taken_of_not_ready hready, step_of_resp_wait hr hp hready⟩⟩

end Sys2Proof.Machine

/-! PROOFS. The family of spec/44_message_codec_host.md, second part: the key's length check (rule R131), the padding (rule R133), and
the encryption and decryption of messages (rules R134 to R138). -/

namespace Sys2Proof.Machine

variable {c : Cipher}

/-! ### Loading a key -/

theorem newCipher_of_length {key : List Byte} (h : key.length = 16) (c : Cipher) :
    newCipher key c =
      { result := .ok (), cipher := { RK := expand (be128 key), keyValid := true }, issued := [.ldkey (be128 key)] } :=
  if_pos (decide_eq_true h)

theorem newCipher_of_length_ne {key : List Byte} (h : key.length ≠ 16) (c : Cipher) :
    newCipher key c = raise .invalidKeyLength c :=
  if_neg (by simpa [keyLengthOk] using h)

/-! ### The padding -/

theorem padLen_pos (m : List Byte) : 1 ≤ padLen m := by rw [padLen]; omega

theorem padLen_le (m : List Byte) : padLen m ≤ 16 := Nat.sub_le _ _

theorem length_pad (m : List Byte) : (pad m).length = m.length + padLen m := by
  rw [pad, List.length_append, List.length_replicate]

/-- The padding fills the message's last block, whole or not (rule R133). -/
theorem length_pad_mod (m : List Byte) : (pad m).length % 16 = 0 := by
  rw [length_pad, padLen]
  omega

/-- The padding of the empty message is one whole block (rule R134). -/
theorem pad_nil : pad [] = bytes16 0x10101010101010101010101010101010#128 := by decide

/-! ### The blocks of a message -/

/-- The blocks of a message of whole blocks are the message (rules R134, R136). -/
theorem flatten_blocksOf {m : List Byte} (h : m.length % 16 = 0) : (blocksOf m).flatten = m := by
  rw [blocksOf, flatten_first_blocks m _ (by omega), List.take_of_length_le (by omega)]

theorem blocksOf_ne_nil {m : List Byte} (h : m.length % 16 = 0) (h0 : m.length ≠ 0) : blocksOf m ≠ [] := by
  intro hnil
  have hm := flatten_blocksOf h
  rw [hnil, List.flatten_nil] at hm
  exact h0 (by rw [← hm, List.length_nil])

/-- A block's buffer is one block (rule R42). -/
theorem blocksOf_bytes16 (v : Word) : blocksOf (bytes16 v) = [bytes16 v] := by
  have htake : (bytes16 v).take 16 = bytes16 v := List.take_of_length_le (length_bytes16 v).le
  simp [blocksOf, htake]

/-! ### The block procedures with a key loaded (rule R132) -/

theorem encBlk_of_keyValid (hk : c.keyValid = true) {b : List Byte} (hb : b.length = 16) :
    encBlk b c = { result := .ok (bytes16 (encryptBlock c.RK (be128 b))), cipher := c, issued := [.enc (be128 b)] } := by
  simp [encBlk, blockLengthOk, hb, issueBlock, commandExec, hk]

theorem decBlk_of_keyValid (hk : c.keyValid = true) {b : List Byte} (hb : b.length = 16) :
    decBlk b c = { result := .ok (bytes16 (decryptBlock c.RK (be128 b))), cipher := c, issued := [.dec (be128 b)] } := by
  simp [decBlk, blockLengthOk, hb, issueBlock, commandExec, hk]

/-! ### Encrypting a message (rule R134) -/

theorem encMsg_of_keyValid (hk : c.keyValid = true) (m : List Byte) :
    encMsg m c =
      { result := .ok ((blocksOf (pad m)).flatMap fun b => bytes16 (encryptBlock c.RK (be128 b)))
        cipher := c
        issued := (blocksOf (pad m)).map fun b => .enc (be128 b) } :=
  overBlocks_of_forall _ fun _ hb => encBlk_of_keyValid hk (length_of_mem_blocksOf hb)

/-! ### Decrypting a message (rules R135 to R138) -/

theorem decMsg_of_bad_length {ct : List Byte} (h : ct.length % 16 ≠ 0 ∨ ct.length = 0) (c : Cipher) :
    decMsg ct c = raise .invalidCiphertextLength c := by
  have hbad : ¬ (ct.length % 16 = 0 ∧ ct.length ≠ 0) := by omega
  exact if_neg (by simpa only [ciphertextLengthOk, decide_eq_true_eq] using hbad)

/-- What the blocks of a ciphertext decrypt to, before the padding is removed (rule R136). -/
def decryptedBlocks (rk : Schedule) (ct : List Byte) : List Byte :=
  (blocksOf ct).flatMap fun b => bytes16 (decryptBlock rk (be128 b))

theorem decMsg_of_keyValid (hk : c.keyValid = true) {ct : List Byte} (h : ct.length % 16 = 0) (h0 : ct.length ≠ 0) :
    decMsg ct c =
      { result := stripPad (decryptedBlocks c.RK ct), cipher := c, issued := (blocksOf ct).map fun b => .dec (be128 b) } := by
  have hblocks := overBlocks_of_forall (blk := decBlk) (blocksOf ct) fun _ hb =>
    decBlk_of_keyValid hk (length_of_mem_blocksOf hb)
  have hok : ciphertextLengthOk ct = true := decide_eq_true ⟨h, h0⟩
  rw [decMsg, if_pos hok, hblocks]
  rfl

theorem decryptedBlocks_ne_nil (rk : Schedule) {ct : List Byte} (h : ct.length % 16 = 0) (h0 : ct.length ≠ 0) :
    decryptedBlocks rk ct ≠ [] := by
  obtain ⟨b, bs, hbs⟩ := List.exists_cons_of_ne_nil (blocksOf_ne_nil h h0)
  have hb : bytes16 (decryptBlock rk (be128 b)) ≠ [] := List.ne_nil_of_length_pos (by simp)
  simp [decryptedBlocks, hbs, hb]

/-- A final byte of 0 or above 16 is malformed padding (rule R138). -/
theorem stripPad_malformed {d : List Byte} {last : Byte} (hd : d.getLast? = some last) (h : last.toNat = 0 ∨ 16 < last.toNat) :
    stripPad d = .error .malformedPadding := by
  rw [stripPad, hd]
  exact if_pos h

/-- A final byte in 1..16 is the number of bytes removed (rules R136, R137). -/
theorem stripPad_ok {d : List Byte} {last : Byte} (hd : d.getLast? = some last) (h1 : 1 ≤ last.toNat) (h16 : last.toNat ≤ 16) :
    stripPad d = .ok (d.take (d.length - last.toNat)) := by
  rw [stripPad, hd]
  exact if_neg (by omega)

/-- A ciphertext of one block (rule R136). -/
theorem decMsg_bytes16_result (hk : c.keyValid = true) (v : Word) :
    (decMsg (bytes16 v) c).result = stripPad (bytes16 (decryptBlock c.RK v)) := by
  have hd : decryptedBlocks c.RK (bytes16 v) = bytes16 (decryptBlock c.RK v) := by
    rw [decryptedBlocks, blocksOf_bytes16, List.flatMap_singleton, be128_bytes16]
  rw [decMsg_of_keyValid hk (by simp) (by simp), hd]

/-! ### The worked examples under the key `TestKey123456789` -/

/-- The whole-block padding encrypted (vector SC2). -/
theorem encryptBlock_emptyMessage :
    encryptBlock (expand 0x546573744B6579313233343536373839#128) 0x10101010101010101010101010101010#128 =
      0xE98CAB02C9B48B618C45E2CD85CF20DE#128 := by decide +kernel

/-- Three bytes of padding of which only the last is read (vector TP1). -/
theorem decryptBlock_uncheckedPadding :
    decryptBlock (expand 0x546573744B6579313233343536373839#128) 0xE3311527D907653D8010340C2A5C53AA#128 =
      0x41424344454647484950515253545503#128 := by decide +kernel

/-- A final byte of 0 (vector TP2). -/
theorem decryptBlock_finalByteZero :
    decryptBlock (expand 0x546573744B6579313233343536373839#128) 0xE3311527D907653D8010340C2A5C53AE#128 =
      0x41424344454647484950515253545500#128 := by decide +kernel

/-- A final byte of 17 (vector TP3). -/
theorem decryptBlock_finalByteSeventeen :
    decryptBlock (expand 0x546573744B6579313233343536373839#128) 0xE3311527D907653D8010340C2A5C53DC#128 =
      0x41424344454647484950515253545511#128 := by decide +kernel

/-! ### The obligations -/

/-- Settles O49: both lengths by `newCipher_of_length_ne` and `newCipher_of_length`, the example by evaluation. -/
theorem newCipherChecksTheKeyLength : Obligations.NewCipherChecksTheKeyLength := by
  refine ⟨fun c => ?_, fun key c => ⟨fun h => ?_, fun h => ?_⟩⟩
  · rw [newCipher_of_length rfl]
    decide
  · rw [newCipher_of_length_ne h]
    exact ⟨rfl, rfl, rfl⟩
  · rw [newCipher_of_length h]
    exact ⟨rfl, rfl, rfl⟩

/-- Settles O51: the amount by `padLen_pos` and `padLen_le`, the length by `length_pad`, the examples by evaluation. -/
theorem paddingIsAlwaysAdded : Obligations.PaddingIsAlwaysAdded := by
  refine ⟨fun m => ⟨padLen_pos m, padLen_le m, rfl, rfl, length_pad_mod m, ?_⟩, by decide, by decide⟩
  rw [length_pad, padLen]
  split <;> omega

/-- Settles O52: the run over the blocks by `encMsg_of_keyValid`, the blocks by `flatten_blocksOf`, the empty message by its one
block. -/
theorem encryptingAMessage : Obligations.EncryptingAMessage := by
  refine ⟨fun m c hk => ?_, ?_⟩
  · rw [encMsg_of_keyValid hk]
    exact ⟨rfl, rfl, rfl, flatten_blocksOf (length_pad_mod m), fun _ => length_of_mem_blocksOf⟩
  · rw [encMsg_of_keyValid rfl, pad_nil, blocksOf_bytes16, List.flatMap_singleton, be128_bytes16, encryptBlock_emptyMessage]

/-- Settles O53: the length check comes first. -/
theorem decryptRejectsBadLengths : Obligations.DecryptRejectsBadLengths := by
  intro ct c h
  rw [decMsg_of_bad_length h]
  exact ⟨rfl, rfl, rfl⟩

/-- Settles O54: the run over the blocks by `decMsg_of_keyValid`, the final byte by `stripPad_malformed` and `stripPad_ok`, the worked
examples by their one decrypted block. -/
theorem decryptingAMessage : Obligations.DecryptingAMessage := by
  refine ⟨fun ct c d hk h h0 hd => ?_, ?_⟩
  · have hne : d ≠ [] := hd ▸ decryptedBlocks_ne_nil c.RK h h0
    have hlast : d.getLast? = some (d.getLast hne) := List.getLast?_eq_some_getLast hne
    rw [decMsg_of_keyValid hk h h0, decryptedBlocks, ← hd]
    exact ⟨rfl, rfl, flatten_blocksOf h, fun _ => length_of_mem_blocksOf, d.getLast hne, hlast, stripPad_malformed hlast,
      stripPad_ok hlast⟩
  · rintro c rfl
    simp only [decMsg_bytes16_result, ← encryptBlock_emptyMessage, decryptBlock_encryptBlock, decryptBlock_uncheckedPadding,
      decryptBlock_finalByteZero, decryptBlock_finalByteSeventeen]
    exact ⟨stripPad_ok (last := 0x10#8) rfl (by decide) (by decide), stripPad_ok (last := 0x03#8) rfl (by decide) (by decide),
      stripPad_malformed (last := 0x00#8) rfl (by decide), stripPad_malformed (last := 0x11#8) rfl (by decide)⟩

end Sys2Proof.Machine

/-! PROOFS. The family of spec/60_exceptions.md: the two error responses, `ERR_NOKEY` (rule R152) and `ERR_ILLOP` (rule R153). -/

namespace Sys2Proof.Machine

variable {s : State}

/-! ### Raising an error -/

/-- What an error sets; every other item is kept (rules R124, R151). -/
theorem raiseError_eq (st : BitVec 2) (s : State) :
    raiseError st s = { s with S := 0#128, rstat := st, rnd := 0#4, phase := .resp } := rfl

/-- A command whose accept step raises an error answers it at that edge (rules R152, R153). -/
theorem exec_idle_of_accept_eq_raiseError {i : Instr} {st : BitVec 2} (hp : s.phase = .idle)
    (ha : accept i s = raiseError st s) :
    exec i s = .next { s with S := 0#128, rstat := st, rnd := 0#4, phase := .resp } := by
  rw [exec_idle i hp, ha, raiseError_eq]

/-! ### The obligations -/

/-- Settles O20: with no key both accept steps raise `ERR_NOKEY`. -/
theorem blockCommandWithoutKeyAnswersNoKey : Obligations.BlockCommandWithoutKeyAnswersNoKey :=
  fun _ b hp hk => ⟨exec_idle_of_accept_eq_raiseError hp (acceptEnc_of_no_key b hk),
    exec_idle_of_accept_eq_raiseError hp (acceptDec_of_no_key b hk)⟩

/-- Settles O21: the accept step of `RSVD` raises `ERR_ILLOP` without a look at its data or at `key_valid`. -/
theorem reservedOpcodeAnswersIllegal : Obligations.ReservedOpcodeAnswersIllegal := by
  intro s d hp
  have ha : accept (.rsvd d) s = raiseError statusErrIllOp s := rfl
  exact exec_idle_of_accept_eq_raiseError hp ha

end Sys2Proof.Machine

/-! PROOFS. The family of spec/70_reset_and_hazards.md: the reset step (rule R171). -/

namespace Sys2Proof.Machine

variable {s : State}

/-- In IDLE the engine is ready for a command and its other outputs are 0 (rule R35). -/
theorem outputs_of_idle (h : s.phase = .idle) :
    s.cmdReady = true ∧ s.rspValid = false ∧ s.rspStatus = 0#2 ∧ s.rspData = 0#128 := by
  have hne : s.phase ≠ .resp := by simp [h]
  exact ⟨cmdReady_iff.mpr h, Bool.eq_false_iff.mpr (mt rspValid_iff.mp hne), rspStatus_of_ne_resp hne, rspData_of_ne_resp hne⟩

/-- The reset step clears every round key (rule R171). -/
theorem resetStep_roundKey (s : State) {i : Nat} (hi : i < 11) : (resetStep s).RK[i] = 0#128 :=
  Vector.getElem_replicate hi

/-- Settles O8: the step is the reset step by `step_of_reset`, the items are its fields, and the outputs are those of IDLE. -/
theorem resetStepResetsEverything : Obligations.ResetStepResetsEverything := by
  intro s h
  have hidle : (resetStep s).afterEdge.phase = .idle := rfl
  exact ⟨_, step_of_reset h, fun _ hi => resetStep_roundKey s hi, rfl, rfl, hidle, rfl, rfl, outputs_of_idle hidle⟩

end Sys2Proof.Machine

/-! PROOFS. Single steps, first part: the commands at the edge that presents them (rules R30, R61, R62), the micro-steps of the busy
phases with the model's stop (log entry 5), and the invariants of rule R34 along every step and run. -/

namespace Sys2Proof.Machine

variable {s t : State}

/-- Settles O10: the reset step, an accept step, a quiet edge and an edge of a busy phase each keep the invariants (`step_inv`). -/
theorem stepKeepsInvariants : Obligations.StepKeepsInvariants := fun _ _ => step_inv

/-! ### Decoding -/

/-- Settles O2: each word is evaluated. -/
theorem commandWordsOfTheSpecDecode : Obligations.CommandWordsOfTheSpecDecode := by
  refine ⟨?_, ?_, ?_, ?_, ?_, ?_⟩ <;> decide

theorem decodeWord_of_lt {n : Nat} (h : n < 2 ^ 130) : decodeWord n = .ok (decodeCmd (BitVec.ofNat 130 n)) :=
  if_pos (decide_eq_true h)

theorem decodeWord_of_ge {n : Nat} (h : 2 ^ 130 ≤ n) : decodeWord n = .error .widerThanCommandWord :=
  if_neg (by simpa [cmdWordFits] using h)

/-- Settles O3: below `2 ^ 130` the answer is a command and no error, from there on it is the error. -/
theorem decodeRejectsExactlyWiderNumbers : Obligations.DecodeRejectsExactlyWiderNumbers := by
  refine fun n => ⟨⟨fun herr => ?_, decodeWord_of_ge⟩, decodeWord_of_lt⟩
  by_contra hlt
  rw [decodeWord_of_lt (by omega)] at herr
  cases herr

/-- The command of a table word is the one of the word's lowest 130 bits (rule R62). -/
theorem decodeCmd_of_decodeTableWord {nbits w : Nat} {i : Instr} (h : decodeTableWord nbits w = some i) :
    decodeCmd (BitVec.ofNat 130 (w % 2 ^ nbits)) = i := by
  rw [decodeTableWord] at h
  by_cases hlt : w % 2 ^ nbits < 2 ^ 130
  · rw [decodeWord_of_lt hlt] at h
    exact Option.some.inj h
  · rw [decodeWord_of_ge (by omega)] at h
    cases h

/-! ### The step and the command on the ports -/

theorem step_of_cmdValid (hr : s.ports.rst = false) (hv : s.ports.cmdValid = true) :
    step s = passEdge (exec (decodeCmd (portWord s.ports)) s) := by
  simp [step, hr, hv]

theorem step_of_no_cmdValid (hr : s.ports.rst = false) (hv : s.ports.cmdValid = false) :
    step s = passEdge (engineEdge s) := by
  simp [step, hr, hv]

/-- The word that `withFetchWord` places stands on the command ports of the next edge (log entry 3). -/
theorem portWord_withFetchWord (s : State) (nbits w : Nat) :
    portWord (s.withFetchWord nbits w).ports = BitVec.ofNat 130 (w % 2 ^ nbits) :=
  append_fields (BitVec.ofNat 130 (w % 2 ^ nbits))

/-- Settles O4: the step by `step_of_cmdValid` and `step_of_no_cmdValid`, the word placed by `portWord_withFetchWord`. -/
theorem stepRunsThePresentedCommand : Obligations.StepRunsThePresentedCommand := by
  refine ⟨fun s i hr hv hi => ?_, fun s => step_of_no_cmdValid, fun s nbits w i hi => ⟨rfl, ?_⟩, fun t => rfl⟩
  · rw [step_of_cmdValid hr hv, hi]
  · rw [step_of_cmdValid rfl rfl, portWord_withFetchWord, decodeCmd_of_decodeTableWord hi]

/-- In IDLE a presented command is accepted (rule R51). -/
theorem accepted_of_idle (hp : s.phase = .idle) : s.accepted = s.presented := if_pos (cmdReady_iff.mpr hp)

theorem cmdReady_of_busy (hp : s.phase ≠ .idle) : s.cmdReady = false := Bool.eq_false_iff.mpr (mt cmdReady_iff.mp hp)

/-- Outside IDLE no command is accepted (rules R51, R61). -/
theorem accepted_of_busy (hp : s.phase ≠ .idle) : s.accepted = none := if_neg (mt cmdReady_iff.mp hp)

/-- Settles O7: the command waits by `exec_busy`. -/
theorem commandWaitsWhileBusy : Obligations.CommandWaitsWhileBusy :=
  fun _ i hp => ⟨exec_busy i hp, accepted_of_busy hp, cmdReady_of_busy hp⟩

/-! ### The outputs -/

/-- Settles O15: with one phase both states are in RESP, where the outputs read `S` and `rstat`, or neither is. -/
theorem outputsHideKeyAndIntermediateState : Obligations.OutputsHideKeyAndIntermediateState := by
  intro s t hp hresp
  refine ⟨by rw [State.cmdReady, State.cmdReady, hp], by rw [State.rspValid, State.rspValid, hp], ?_⟩
  by_cases hs : s.phase = .resp
  · obtain ⟨hS, hstat⟩ := hresp hs
    have ht : t.phase = .resp := hp ▸ hs
    rw [rspStatus_of_resp hs, rspStatus_of_resp ht, rspData_of_resp hs, rspData_of_resp ht]
    exact ⟨hstat, hS⟩
  · have ht : t.phase ≠ .resp := hp ▸ hs
    rw [rspStatus_of_ne_resp hs, rspStatus_of_ne_resp ht, rspData_of_ne_resp hs, rspData_of_ne_resp ht]
    exact ⟨rfl, rfl⟩

/-- Settles O16: in RESP it is invariant (f), elsewhere `rsp_data` is 0. -/
theorem errorResponsesCarryNoData : Obligations.ErrorResponsesCarryNoData := by
  intro s hs hstat
  by_cases hp : s.phase = .resp
  · obtain ⟨-, -, hdata⟩ := (inv_iff_of_resp hp).mp hs
    rw [rspData_of_resp hp]
    exact hdata (rspStatus_of_resp hp ▸ hstat)
  · exact rspData_of_ne_resp hp

/-! ### What accepting a command leaves unchanged -/

/-- In IDLE the next state of `exec` is the accept step's. -/
theorem eq_accept_of_exec {i : Instr} (hp : s.phase = .idle) (h : exec i s = .next t) : t = accept i s := by
  rw [exec_idle i hp] at h
  exact (Host.Outcome.next.inj h).symm

/-- Only the acceptance of an `LDKEY` writes the schedule or `key_valid` (rules R30, R83). -/
theorem accept_schedule {i : Instr} (hi : ∀ k, i ≠ .ldkey k) :
    (accept i s).RK = s.RK ∧ (accept i s).keyValid = s.keyValid := by
  cases i with
  | rsvd d => exact ⟨rfl, rfl⟩
  | ldkey k => exact absurd rfl (hi k)
  | enc b => cases hk : s.keyValid <;> simp [accept, acceptEnc, hk]
  | dec c => cases hk : s.keyValid <;> simp [accept, acceptDec, hk]

/-- Settles O24: the schedule by `accept_schedule`, the inputs by `accept_inputs`, the rest by the accept step of the command. -/
theorem acceptedCommandFrames : Obligations.AcceptedCommandFrames := by
  refine fun s t hp => ⟨fun d h => ?_, fun k h => ?_, fun b h => ?_, fun c h => ?_⟩ <;> obtain rfl := eq_accept_of_exec hp h
  · exact ⟨rfl, rfl, accept_inputs _ s⟩
  · exact ⟨fun j hj hne => writeRK_getElem_ne s 0 k hj hne.symm, rfl, accept_inputs _ s⟩
  · obtain ⟨hRK, hkey⟩ := accept_schedule (s := s) (i := .enc b) nofun
    exact ⟨hRK, hkey, fun hk => by rw [accept, acceptEnc_of_keyValid b hk], accept_inputs _ s⟩
  · obtain ⟨hRK, hkey⟩ := accept_schedule (s := s) (i := .dec c) nofun
    exact ⟨hRK, hkey, fun hk => by rw [accept, acceptDec_of_keyValid c hk], accept_inputs _ s⟩

/-! ### The micro-steps of the busy phases, and where the model stops -/

theorem engineEdge_kexp (hp : s.phase = .kexp) : engineEdge s = expansionStep s := by rw [engineEdge, hp]

theorem engineEdge_encr (hp : s.phase = .encr) : engineEdge s = encRoundStep s := by rw [engineEdge, hp]

theorem engineEdge_decr (hp : s.phase = .decr) : engineEdge s = decRoundStep s := by rw [engineEdge, hp]

/-- The expansion step, as rule R84 writes it. -/
theorem expansionStep_eq (hp : s.phase = .kexp) {j : Nat} (hj : j < 10) (hr : s.rnd.toNat = j + 1) :
    expansionStep s = .next { s with
      RK := s.RK.set (j + 1) (kstep s.RK[j] (j + 1))
      keyValid := if j = 9 then true else s.keyValid
      rnd := if j = 9 then 0#4 else s.rnd + 1#4
      rstat := if j = 9 then statusOk else s.rstat
      phase := if j = 9 then .resp else .kexp } := by
  by_cases hlast : j = 9
  · subst hlast
    rw [expansionStep_last hr, writeRK_of_lt s _ (by decide)]
    rfl
  · rw [expansionStep_mid hr (by omega), writeRK_of_lt s _ (by omega)]
    simp only [if_neg hlast, ← hp]

/-- The round step of `ENCR`, as rule R120 writes it. -/
theorem encRoundStep_eq (hp : s.phase = .encr) (hr : s.rnd.toNat < 11) :
    encRoundStep s = .next { s with
      S := ernd s.S s.RK[s.rnd.toNat]
      rnd := if s.rnd = 10#4 then 0#4 else s.rnd + 1#4
      rstat := if s.rnd = 10#4 then statusOk else s.rstat
      phase := if s.rnd = 10#4 then .resp else .encr } := by
  by_cases hlast : s.rnd = 10#4
  · have hten : s.rnd.toNat = 10 := by rw [hlast]; rfl
    simp only [encRoundStep_last hten, if_pos hlast, hten]
  · rw [encRoundStep_mid (by bv_omega)]
    simp only [if_neg hlast, ← hp]

/-- The round step of `DECR`, as rule R121 writes it. -/
theorem decRoundStep_eq (hp : s.phase = .decr) (hr : s.rnd.toNat < 11) :
    decRoundStep s = .next { s with
      S := if s.rnd = 0#4 then ark s.S s.RK[0] else drnd s.S s.RK[s.rnd.toNat]
      rnd := if s.rnd = 0#4 then 0#4 else s.rnd - 1#4
      rstat := if s.rnd = 0#4 then statusOk else s.rstat
      phase := if s.rnd = 0#4 then .resp else .decr } := by
  by_cases hlast : s.rnd = 0#4
  · rw [decRoundStep_last (by rw [hlast]; rfl)]
    simp only [hlast, if_true]
  · rw [decRoundStep_mid (by bv_omega) hr]
    simp only [if_neg hlast, ← hp]

/-- An expansion step stops where `RK[rnd - 1]` or `RK[rnd]` does not exist (log entry 5). -/
theorem expansionStep_fault (h : s.rnd.toNat = 0 ∨ 11 ≤ s.rnd.toNat) :
    expansionStep s = .fault .roundKeyIndexOutOfRange := by
  unfold expansionStep
  cases hr : s.rnd.toNat with
  | zero => rfl
  | succ i =>
    have hnone : s.readRK (i + 1) = none := readRK_of_ge s (i + 1) (by omega)
    cases hprev : s.readRK i <;> simp [hprev, hnone]

theorem encRoundStep_fault (h : 11 ≤ s.rnd.toNat) : encRoundStep s = .fault .roundKeyIndexOutOfRange := by
  rw [encRoundStep, readRK_of_ge s _ h]

theorem decRoundStep_fault (h : 11 ≤ s.rnd.toNat) : decRoundStep s = .fault .roundKeyIndexOutOfRange := by
  rw [decRoundStep, readRK_of_ge s _ h]

/-- A busy phase stops at a round index that selects no round key (log entry 5). -/
theorem engineEdge_fault
    (h : s.phase = .kexp ∧ s.rnd = 0#4 ∨ (s.phase = .kexp ∨ s.phase = .encr ∨ s.phase = .decr) ∧ 11 ≤ s.rnd.toNat) :
    engineEdge s = .fault .roundKeyIndexOutOfRange := by
  obtain ⟨hp, hr⟩ | ⟨hp | hp | hp, hr⟩ := h
  · rw [engineEdge_kexp hp, expansionStep_fault (.inl (by rw [hr]; rfl))]
  · rw [engineEdge_kexp hp, expansionStep_fault (.inr hr)]
  · rw [engineEdge_encr hp, encRoundStep_fault hr]
  · rw [engineEdge_decr hp, decRoundStep_fault hr]

/-- Settles O22: the command waits by `exec_busy`, and the edge is the micro-step of the phase or the stop. -/
theorem microStepsOfTheBusyPhases : Obligations.MicroStepsOfTheBusyPhases := by
  refine fun s i => ⟨fun hp j hj hr => ?_, fun hp hr => ?_, fun hp hr => ?_, fun h => ?_⟩
  · rw [exec_busy i (by simp [hp]), engineEdge_kexp hp, expansionStep_eq hp hj hr, kstep]
  · rw [exec_busy i (by simp [hp]), engineEdge_encr hp, encRoundStep_eq hp hr, ernd, ark]
  · rw [exec_busy i (by simp [hp]), engineEdge_decr hp, decRoundStep_eq hp hr, drnd, ark, ark]
  · have hbusy : s.phase ≠ .idle := by
      obtain ⟨hp, -⟩ | ⟨hp | hp | hp, -⟩ := h <;> simp [hp]
    rw [exec_busy i hbusy, engineEdge_fault h]

/-! ### A machine that meets the invariants goes on (rules R25, R34) -/

theorem exists_engineEdge_of_inv (hs : s.Inv) : ∃ t, engineEdge s = .next t := by
  cases hp : s.phase with
  | idle => exact ⟨s, by rw [engineEdge, hp]⟩
  | kexp =>
    obtain ⟨-, hpos, hle, -⟩ := (inv_iff_of_kexp hp).mp hs
    exact ⟨_, (engineEdge_kexp hp).trans (expansionStep_eq hp (j := s.rnd.toNat - 1) (by omega) (by omega))⟩
  | encr =>
    obtain ⟨-, -, -, hle⟩ := (inv_iff_of_encr hp).mp hs
    exact ⟨_, (engineEdge_encr hp).trans (encRoundStep_eq hp (by omega))⟩
  | decr =>
    obtain ⟨-, -, hle⟩ := (inv_iff_of_decr hp).mp hs
    exact ⟨_, (engineEdge_decr hp).trans (decRoundStep_eq hp (by omega))⟩
  | resp => cases hready : s.ports.rspReady <;> simp [engineEdge, hp, hready]

theorem exists_step_of_inv (hs : s.Inv) : ∃ t, step s = .next t := by
  cases hr : s.ports.rst with
  | true => exact ⟨_, step_of_reset hr⟩
  | false =>
    by_cases hp : s.phase = .idle
    · cases hv : s.ports.cmdValid with
      | true => exact ⟨_, step_of_idle_presented hp (presented_of_cmdValid hr hv)⟩
      | false => exact ⟨_, step_of_idle_quiet hp hr hv⟩
    · obtain ⟨t, ht⟩ := exists_engineEdge_of_inv hs
      exact ⟨t.afterEdge, by rw [step_of_busy hp hr, ht, passEdge]⟩

theorem safe_of_inv (hs : s.Inv) : s.Safe := by
  intro n
  induction n generalizing s with
  | zero => exact ⟨s, rfl⟩
  | succ n ih =>
    obtain ⟨u, hu⟩ := exists_step_of_inv hs
    rw [run_succ_of_step hu]
    exact ih (step_inv hs hu)

/-- Settles O12: each step goes on by `exists_step_of_inv` and keeps the invariants. -/
theorem invariantStatesRunForever : Obligations.InvariantStatesRunForever := fun _ => safe_of_inv

end Sys2Proof.Machine

/-! PROOFS. Single steps, second part: the inputs that a step ignores (rules R61, R126, R170), the status codes (rule R65), and who
writes the schedule (rules R21, R83). -/

namespace Sys2Proof.Machine

variable {s t : State}

/-! ### The inputs that a step ignores -/

/-- The outcome with other inputs for the coming edges. -/
def outcomeWithPins (pins : List PortIn) : Host.Outcome State Fault Refusal → Host.Outcome State Fault Refusal
  | .next t => .next { t with pins := pins }
  | .fault r => .fault r
  | .refused r => .refused r

/-- What an edge sampled is gone when the edge has passed. -/
theorem passEdge_outcomeWithPins (p q : PortIn) (rest : List PortIn) (o : Host.Outcome State Fault Refusal) :
    passEdge (outcomeWithPins (p :: rest) o) = passEdge (outcomeWithPins (q :: rest) o) := by
  cases o <;> rfl

theorem accept_pins (i : Instr) (s : State) (pins : List PortIn) :
    accept i { s with pins := pins } = { accept i s with pins := pins } := by
  cases i with
  | rsvd d => rfl
  | ldkey k => rfl
  | enc b => cases hk : s.keyValid <;> simp [accept, acceptEnc, hk, raiseError, respond]
  | dec c => cases hk : s.keyValid <;> simp [accept, acceptDec, hk, raiseError, respond]

theorem expansionStep_pins (s : State) (pins : List PortIn) :
    expansionStep { s with pins := pins } = outcomeWithPins pins (expansionStep s) := by
  simp only [expansionStep, State.readRK]
  split
  · rfl
  · split
    · split <;> rfl
    · rfl

theorem encRoundStep_pins (s : State) (pins : List PortIn) :
    encRoundStep { s with pins := pins } = outcomeWithPins pins (encRoundStep s) := by
  simp only [encRoundStep, State.readRK]
  split
  · split <;> rfl
  · rfl

theorem decRoundStep_pins (s : State) (pins : List PortIn) :
    decRoundStep { s with pins := pins } = outcomeWithPins pins (decRoundStep s) := by
  simp only [decRoundStep, State.readRK]
  split
  · split <;> rfl
  · rfl

/-- An edge without a command reads an input in `RESP` only (rule R126). -/
theorem engineEdge_pins (hp : s.phase ≠ .resp) (pins : List PortIn) :
    engineEdge { s with pins := pins } = outcomeWithPins pins (engineEdge s) := by
  simp only [engineEdge]
  split
  · rfl
  · exact expansionStep_pins s pins
  · exact encRoundStep_pins s pins
  · exact decRoundStep_pins s pins
  · next hresp => exact absurd hresp hp

theorem exec_pins (i : Instr) (hp : s.phase ≠ .resp) (pins : List PortIn) :
    exec i { s with pins := pins } = outcomeWithPins pins (exec i s) := by
  by_cases hidle : s.phase = .idle
  · rw [exec_idle i hidle, exec_idle (s := { s with pins := pins }) i hidle, accept_pins]
    rfl
  · rw [exec_busy i hidle, exec_busy (s := { s with pins := pins }) i hidle, engineEdge_pins hp]

variable {p q : PortIn}

/-- With `rst = 1` no other input has an effect (rule R170). -/
theorem step_pins_of_reset (rest : List PortIn) (hp : p.rst = true) (hq : q.rst = true) :
    step { s with pins := p :: rest } = step { s with pins := q :: rest } := by
  rw [step_of_reset (s := { s with pins := p :: rest }) hp, step_of_reset (s := { s with pins := q :: rest }) hq]
  rfl

/-- Outside RESP an edge reads the command ports at most. -/
theorem step_pins_of_ne_resp (rest : List PortIn) (hphase : s.phase ≠ .resp) (hp : p.rst = false) :
    step { s with pins := p :: rest } =
      passEdge (outcomeWithPins (p :: rest)
        (if p.cmdValid then exec (decodeOp p.cmdOp p.cmdData) s else engineEdge s)) := by
  cases hv : p.cmdValid with
  | true =>
    rw [step_of_cmdValid (s := { s with pins := p :: rest }) hp hv, decodeCmd_portWord, exec_pins _ hphase]
    rfl
  | false =>
    rw [step_of_no_cmdValid (s := { s with pins := p :: rest }) hp hv, engineEdge_pins hphase]
    rfl

/-- Outside RESP `rsp_ready` has no effect (rule R126), and with `cmd_valid = 0` neither have `cmd_op` and `cmd_data`. -/
theorem step_pins_congr_of_ne_resp (rest : List PortIn) (hphase : s.phase ≠ .resp) (hr : p.rst = q.rst)
    (hv : p.cmdValid = q.cmdValid) (hcmd : p.cmdValid = true → p.cmdOp = q.cmdOp ∧ p.cmdData = q.cmdData) :
    step { s with pins := p :: rest } = step { s with pins := q :: rest } := by
  cases hp : p.rst with
  | true => exact step_pins_of_reset rest hp (hr ▸ hp)
  | false =>
    rw [step_pins_of_ne_resp rest hphase hp, step_pins_of_ne_resp rest hphase (hr ▸ hp), passEdge_outcomeWithPins p q, ← hv]
    cases hpv : p.cmdValid with
    | true =>
      obtain ⟨hop, hdata⟩ := hcmd hpv
      rw [hop, hdata]
    | false => rfl

/-- Outside IDLE the command ports have no effect (rule R61). -/
theorem step_pins_congr_of_busy (rest : List PortIn) (hphase : s.phase ≠ .idle) (hr : p.rst = q.rst)
    (hready : p.rspReady = q.rspReady) :
    step { s with pins := p :: rest } = step { s with pins := q :: rest } := by
  cases hp : p.rst with
  | true => exact step_pins_of_reset rest hp (hr ▸ hp)
  | false =>
    have hq : q.rst = false := hr ▸ hp
    by_cases hresp : s.phase = .resp
    · cases hpr : p.rspReady with
      | true =>
        rw [step_of_resp_ready (s := { s with pins := p :: rest }) hp hresp hpr,
          step_of_resp_ready (s := { s with pins := q :: rest }) hq hresp (hready ▸ hpr)]
        rfl
      | false =>
        rw [step_of_resp_wait (s := { s with pins := p :: rest }) hp hresp hpr,
          step_of_resp_wait (s := { s with pins := q :: rest }) hq hresp (hready ▸ hpr)]
        rfl
    · rw [step_of_busy (s := { s with pins := p :: rest }) hphase hp, step_of_busy (s := { s with pins := q :: rest }) hphase hq,
        engineEdge_pins hresp (p :: rest), engineEdge_pins hresp (q :: rest), passEdge_outcomeWithPins p q]

/-- Settles O6: the command ports by `step_pins_congr_of_busy`, `rsp_ready` by `step_pins_congr_of_ne_resp`, both with
`cmd_valid = 0`, and `rst = 1` by `step_pins_of_reset`. -/
theorem ignoredInputsHaveNoEffect : Obligations.IgnoredInputsHaveNoEffect := by
  refine fun s p q rest hr => ⟨fun hphase hready => step_pins_congr_of_busy rest hphase hr hready,
    fun hphase hv hop hdata => step_pins_congr_of_ne_resp rest hphase hr hv fun _ => ⟨hop, hdata⟩,
    fun hpv hqv hready => ?_, fun hp => step_pins_of_reset rest hp (hr ▸ hp)⟩
  by_cases hidle : s.phase = .idle
  · exact step_pins_congr_of_ne_resp rest (by simp [hidle]) hr (hpv.trans hqv.symm) fun h => by simp [hpv] at h
  · exact step_pins_congr_of_busy rest hidle hr hready

/-! ### The status codes -/

/-- An accept step leaves the status register or raises one of the two errors. -/
theorem accept_rstat (i : Instr) (s : State) :
    (accept i s).rstat = s.rstat ∨ (accept i s).rstat = statusErrNoKey ∨ (accept i s).rstat = statusErrIllOp := by
  cases i with
  | rsvd d => exact .inr (.inr rfl)
  | ldkey k => exact .inl rfl
  | enc b => cases hk : s.keyValid <;> simp [accept, acceptEnc, hk]
  | dec c => cases hk : s.keyValid <;> simp [accept, acceptDec, hk]

/-- An edge without a command leaves the status register or sets it to `OK`. -/
theorem engineEdge_rstat (h : engineEdge s = .next t) : t.rstat = s.rstat ∨ t.rstat = statusOk := by
  obtain ⟨-, rfl⟩ | ⟨-, he⟩ | ⟨-, he⟩ | ⟨-, he⟩ | ⟨-, -, rfl⟩ | ⟨-, -, rfl⟩ := engineEdge_cases h
  · exact .inl rfl
  · obtain ⟨_, _, -, ⟨-, rfl⟩ | ⟨-, rfl⟩⟩ := expansionStep_cases he
    · exact .inl rfl
    · exact .inr rfl
  · obtain ⟨-, ⟨-, rfl⟩ | ⟨-, rfl⟩⟩ := encRoundStep_cases he
    · exact .inl rfl
    · exact .inr rfl
  · obtain ⟨-, ⟨-, rfl⟩ | ⟨-, rfl⟩⟩ := decRoundStep_cases he
    · exact .inl rfl
    · exact .inr rfl
  · exact .inr rfl
  · exact .inl rfl

theorem step_rstat_ne_three (hs : s.rstat ≠ 0b11#2) (h : step s = .next t) : t.rstat ≠ 0b11#2 := by
  obtain ⟨-, rfl⟩ | ⟨-, -, i, -, rfl⟩ | ⟨-, -, -, rfl⟩ | ⟨-, -, u, hu, rfl⟩ := step_cases h
  · rw [afterEdge_rstat, resetStep_rstat]
    decide
  · obtain h | h | h := accept_rstat i s <;> rw [afterEdge_rstat, h]
    · exact hs
    · decide
    · decide
  · exact hs
  · obtain h | h := engineEdge_rstat hu <;> rw [afterEdge_rstat, h]
    · exact hs
    · decide

/-- Settles O13: the steps by `step_rstat_ne_three`; the output shows `rstat` or 0. -/
theorem statusThreeIsNeverProduced : Obligations.StatusThreeIsNeverProduced := by
  refine ⟨fun s t => step_rstat_ne_three, fun s hs => ?_, by decide⟩
  by_cases hp : s.phase = .resp
  · rwa [rspStatus_of_resp hp]
  · rw [rspStatus_of_ne_resp hp]
    decide

/-! ### Who writes the schedule -/

/-- Outside `KEXP` an edge without a command leaves the schedule and `key_valid`. -/
theorem engineEdge_schedule (hp : s.phase ≠ .kexp) (h : engineEdge s = .next t) : t.RK = s.RK ∧ t.keyValid = s.keyValid := by
  obtain ⟨-, rfl⟩ | ⟨hk, -⟩ | ⟨-, he⟩ | ⟨-, he⟩ | ⟨-, -, rfl⟩ | ⟨-, -, rfl⟩ := engineEdge_cases h
  · exact ⟨rfl, rfl⟩
  · exact absurd hk hp
  · obtain ⟨-, ⟨-, rfl⟩ | ⟨-, rfl⟩⟩ := encRoundStep_cases he <;> exact ⟨rfl, rfl⟩
  · obtain ⟨-, ⟨-, rfl⟩ | ⟨-, rfl⟩⟩ := decRoundStep_cases he <;> exact ⟨rfl, rfl⟩
  · exact ⟨rfl, rfl⟩
  · exact ⟨rfl, rfl⟩

/-- An expansion step writes `RK[rnd]` only, and `key_valid` with `rnd = 10` only (rule R84). -/
theorem expansionStep_schedule (h : expansionStep s = .next t) :
    (∀ j, (hj : j < 11) → j ≠ s.rnd.toNat → t.RK[j] = s.RK[j]) ∧ (s.rnd ≠ 10#4 → t.keyValid = s.keyValid) := by
  obtain ⟨i, hi, hr, ⟨-, rfl⟩ | ⟨hlast, rfl⟩⟩ := expansionStep_cases h
  · exact ⟨fun j hj hne => writeRK_getElem_ne s (i + 1) _ hj (by omega), fun _ => rfl⟩
  · refine ⟨fun j hj hne => writeRK_getElem_ne s (i + 1) _ hj (by omega), fun hne => absurd ?_ hne⟩
    exact BitVec.eq_of_toNat_eq (hr.trans hlast)

/-- Without reset a step in `KEXP` is an expansion step. -/
theorem expansionStep_of_step (hp : s.phase = .kexp) (hr : s.ports.rst = false) (h : step s = .next t) :
    ∃ u, expansionStep s = .next u ∧ t = u.afterEdge := by
  obtain ⟨hrst, -⟩ | ⟨-, hidle, -⟩ | ⟨-, hidle, -⟩ | ⟨-, -, u, hu, rfl⟩ := step_cases h
  · simp [hr] at hrst
  · simp [hp] at hidle
  · simp [hp] at hidle
  · exact ⟨u, engineEdge_kexp hp ▸ hu, rfl⟩

/-- Without reset, and with no `LDKEY` accepted or expanded, a step leaves the schedule and `key_valid`. -/
theorem step_schedule (hr : s.ports.rst = false) (hp : s.phase ≠ .kexp) (ha : ∀ k, s.accepted ≠ some (.ldkey k))
    (h : step s = .next t) : t.RK = s.RK ∧ t.keyValid = s.keyValid := by
  obtain ⟨hrst, -⟩ | ⟨-, hidle, i, hi, rfl⟩ | ⟨-, -, -, rfl⟩ | ⟨-, -, u, hu, rfl⟩ := step_cases h
  · simp [hr] at hrst
  · refine accept_schedule fun k hk => ha k ?_
    rw [accepted_of_idle hidle, hi, hk]
  · exact ⟨rfl, rfl⟩
  · rw [afterEdge_RK, afterEdge_keyValid]
    exact engineEdge_schedule hp hu

/-- Settles O25: the first clause by `step_schedule`, the other two by `expansionStep_schedule`. -/
theorem onlyLdkeyWritesTheSchedule : Obligations.OnlyLdkeyWritesTheSchedule := by
  refine fun s t hr h => ⟨fun hp ha => step_schedule hr hp ha h, fun hp => ?_, fun hp => ?_⟩ <;>
    obtain ⟨u, hu, rfl⟩ := expansionStep_of_step hp hr h
  · exact (expansionStep_schedule hu).1
  · exact (expansionStep_schedule hu).2

end Sys2Proof.Machine

/-! PROOFS. Runs: what a run accepts and takes, an untaken response (rule R178), the step machine against the command-level machine
(rules R47, R123, R127), the way from a busy phase to the response (rule R182), and an abandoned command (rule R172). -/

namespace Sys2Proof.Machine

variable {s t : State}

/-! ### The inputs along a run -/

theorem resetLow_of_run {m n : Nat} (h : Sys2Proof.core.run m s = .next t) (hr : s.ResetLow (m + n)) : t.ResetLow n := by
  intro k hk
  rw [run_portsAt h]
  exact hr (m + k) (by omega)

theorem hostWaits_of_run {m n : Nat} (h : Sys2Proof.core.run m s = .next t) (hw : s.HostWaits m n) : t.HostWaits 0 n := by
  intro k _ hk
  rw [run_portsAt h]
  exact hw (m + k) (by omega) (by omega)

theorem run_one (h : step s = .next t) : Sys2Proof.core.run 1 s = .next t := by rw [run_succ_of_step h, run_zero]

/-! ### What a run accepts and takes -/

theorem taken_of_ne_resp (hp : s.phase ≠ .resp) : s.taken = none :=
  if_neg fun ⟨_, hv, _⟩ => hp (rspValid_iff.mp hv)

/-- The commands accepted over a run and then `n` edges more. -/
theorem acceptedIn_add {m n : Nat} (h : Sys2Proof.core.run m s = .next t) :
    acceptedIn (m + n) s = acceptedIn m s ++ acceptedIn n t := by
  induction m generalizing s with
  | zero =>
    cases h
    rw [Nat.zero_add, acceptedIn, List.nil_append]
  | succ m ih =>
    obtain ⟨u, hu, hrun⟩ := run_succ_cases h
    rw [Nat.add_right_comm, acceptedIn_succ hu, acceptedIn_succ hu, ih hrun, List.append_assoc]

/-- A run that is never in IDLE accepts nothing. -/
theorem acceptedIn_eq_nil {n : Nat} (h : ∀ k, k < n → ∃ u : State, Sys2Proof.core.run k s = .next u ∧ u.phase ≠ .idle) :
    acceptedIn n s = [] := by
  induction n generalizing s with
  | zero => rfl
  | succ n ih =>
    obtain ⟨_, ⟨⟩, hs⟩ := h 0 (Nat.succ_pos n)
    rw [acceptedIn, accepted_of_busy hs]
    split
    · next t ht => exact ih fun k hk => run_succ_of_step ht ▸ h (k + 1) (Nat.succ_lt_succ hk)
    · rfl
    · rfl

/-- From its acceptance to its response a command is the only one accepted. -/
theorem acceptedIn_of_respondsAfter {i : Instr} {n : Nat} (hp : s.phase = .idle) (hc : s.presented = some i)
    (h : s.RespondsAfter n) : acceptedIn (n + 1) s = [i] := by
  obtain ⟨-, hbusy⟩ := h
  have hstep := step_of_idle_presented hp hc
  have hrest : acceptedIn n (accept i s).afterEdge = [] := acceptedIn_eq_nil fun k hk => by
    obtain ⟨u, hu, hne, -⟩ := hbusy k hk
    exact ⟨u, (run_succ_of_step hstep).symm.trans hu, hne⟩
  rw [acceptedIn_succ hstep, accepted_of_idle hp, hc, hrest]
  rfl

/-- A response that the host leaves waiting (rule R178). -/
theorem run_resp_wait {n : Nat} (hp : s.phase = .resp) (hr : s.ResetLow n) (hw : s.HostWaits 0 n) :
    Sys2Proof.core.run n s = .next { s with pins := s.pins.drop n, edges := s.edges + n } ∧
      takenIn n s = [] ∧ acceptedIn n s = [] := by
  induction n generalizing s with
  | zero => exact ⟨rfl, rfl, rfl⟩
  | succ n ih =>
    have hready : s.ports.rspReady = false := hw 0 le_rfl (by omega)
    have hstep := step_of_resp_wait (hr 0 (by omega)) hp hready
    have hone := run_one hstep
    obtain ⟨hrun, htaken, haccepted⟩ := ih (s := s.afterEdge) hp (resetLow_of_run hone (Nat.add_comm n 1 ▸ hr))
      (hostWaits_of_run hone fun k hk hlt => hw k (by omega) (by omega))
    refine ⟨?_, ?_, ?_⟩
    · rw [run_succ_of_step hstep, hrun]
      simp [State.afterEdge, Nat.add_assoc, Nat.add_comm 1 n]
    · rw [takenIn_succ hstep, taken_of_not_ready hready, htaken]
      rfl
    · rw [acceptedIn_succ hstep, accepted_of_busy (by simp [hp]), haccepted]
      rfl

/-- Settles O26 by `run_resp_wait`. -/
theorem untakenResponseStaysForEver : Obligations.UntakenResponseStaysForEver := fun _ _ => run_resp_wait

/-! ### A command being served -/

/-- The command, accepted when the engine held `c`, is being served: its schedule or its rounds have come as far as `rnd` says, or its
response of rule R125 is presented. -/
inductive State.Serving (s : State) (c : Cipher) : Instr → Prop where
  | expanding {k : Word} {n : Nat} (hp : s.phase = .kexp) (hn : n < 10) (hrnd : s.rnd.toNat = n + 1) (hS : s.S = 0#128)
      (hRK : ∀ j, (hj : j ≤ n) → s.RK[j] = roundKey k j) : s.Serving c (.ldkey k)
  | encrypting {b : Word} {r : Nat} (hp : s.phase = .encr) (hr : r < 10) (hrnd : s.rnd.toNat = r + 1) (hc : s.cipher = c)
      (hk : c.keyValid = true) (hS : s.S = encState c.RK b r) : s.Serving c (.enc b)
  | decrypting {d : Word} {r : Nat} (hp : s.phase = .decr) (hr : r < 11) (hrnd : s.rnd.toNat = 10 - r) (hc : s.cipher = c)
      (hk : c.keyValid = true) (hS : s.S = decState c.RK d r) : s.Serving c (.dec d)
  | answering {i : Instr} (hp : s.phase = .resp) (hrnd : s.rnd = 0#4) (hc : s.cipher = (commandExec c i).1)
      (hresp : ⟨s.rstat, s.S⟩ = (commandExec c i).2) : s.Serving c i

theorem response_of_resp (hp : s.phase = .resp) : s.response = { status := s.rstat, data := s.S } := by
  rw [State.response, rspStatus_of_resp hp, rspData_of_resp hp]

theorem phase_ne_idle_of_serving {c : Cipher} {i : Instr} (h : s.Serving c i) : s.phase ≠ .idle := by
  cases h <;> simp [*]

theorem answer_of_serving {c : Cipher} {i : Instr} (h : s.Serving c i) (hp : s.phase = .resp) :
    s.rnd = 0#4 ∧ s.cipher = (commandExec c i).1 ∧ s.response = (commandExec c i).2 := by
  cases h with
  | expanding hp' => simp [hp] at hp'
  | encrypting hp' => simp [hp] at hp'
  | decrypting hp' => simp [hp] at hp'
  | answering _ hrnd hc hresp => exact ⟨hrnd, hc, (response_of_resp hp).trans hresp⟩

theorem afterEdge_serving {c : Cipher} {i : Instr} (h : s.Serving c i) : s.afterEdge.Serving c i := by
  cases h with
  | expanding hp hn hrnd hS hRK => exact .expanding hp hn hrnd hS hRK
  | encrypting hp hr hrnd hc hk hS => exact .encrypting hp hr hrnd hc hk hS
  | decrypting hp hr hrnd hc hk hS => exact .decrypting hp hr hrnd hc hk hS
  | answering hp hrnd hc hresp => exact .answering hp hrnd hc hresp

/-- A presented command that is accepted is served from then on. -/
theorem accept_serving (i : Instr) (s : State) : (accept i s).afterEdge.Serving s.cipher i := by
  cases i with
  | rsvd d => exact .answering rfl rfl rfl rfl
  | ldkey k =>
    refine .expanding (n := 0) rfl (by decide) rfl rfl fun j hj => ?_
    obtain rfl : j = 0 := by omega
    exact writeRK_getElem_self s 0 k (by decide)
  | enc b =>
    cases hk : s.keyValid with
    | true =>
      rw [accept, acceptEnc_of_keyValid b hk]
      exact .encrypting (r := 0) rfl (by decide) rfl rfl hk rfl
    | false =>
      rw [accept, acceptEnc_of_no_key b hk]
      exact .answering rfl rfl rfl (by simp [commandExec, State.cipher, hk])
  | dec d =>
    cases hk : s.keyValid with
    | true =>
      rw [accept, acceptDec_of_keyValid d hk]
      exact .decrypting (r := 0) rfl (by decide) rfl rfl hk rfl
    | false =>
      rw [accept, acceptDec_of_no_key d hk]
      exact .answering rfl rfl rfl (by simp [commandExec, State.cipher, hk])

theorem step_expanding {c : Cipher} {k : Word} {n : Nat} (hr : s.ports.rst = false) (hp : s.phase = .kexp) (hn : n < 10)
    (hrnd : s.rnd.toNat = n + 1) (hS : s.S = 0#128) (hRK : ∀ j, (hj : j ≤ n) → s.RK[j] = roundKey k j) :
    ∃ t, step s = .next t ∧ t.Serving c (.ldkey k) := by
  have hnext := getElem_setIfInBounds_kstep hn hRK
  by_cases hlast : n + 1 < 10
  · exact ⟨_, step_of_kexp_mid hp hr hrnd hlast, .expanding hp hlast (by simp only [afterEdge_rnd]; bv_omega) hS hnext⟩
  · obtain rfl : n = 9 := by omega
    refine ⟨_, step_of_kexp_last hp hr hrnd, .answering rfl rfl ?_ ?_⟩
    · have hexp : s.RK.setIfInBounds 10 (kstep s.RK[9] 10) = expand k :=
        eq_expand_of_roundKey fun i hi => hnext i (by omega)
      simp [State.cipher, commandExec, hexp]
    · simp [commandExec, hS]

theorem step_encrypting {c : Cipher} {b : Word} {r : Nat} (hrst : s.ports.rst = false) (hp : s.phase = .encr) (hr : r < 10)
    (hrnd : s.rnd.toNat = r + 1) (hc : s.cipher = c) (hk : c.keyValid = true) (hS : s.S = encState c.RK b r) :
    ∃ t, step s = .next t ∧ t.Serving c (.enc b) := by
  subst hc
  have hround : ernd s.S s.RK[r + 1] = encState s.RK b (r + 1) := by rw [encState_succ s.RK b hr, hS]; rfl
  refine ⟨_, step_of_encr hrst hp (r + 1) (by omega) hrnd, ?_⟩
  by_cases hlast : r + 1 = 10
  · obtain rfl : r = 9 := by omega
    refine .answering rfl rfl rfl ?_
    simp only [if_true, hround, commandExec, if_pos hk, encryptBlock_eq_encState]
    rfl
  · refine .encrypting (r := r + 1) (if_neg hlast) (by omega) ?_ rfl hk hround
    simp only [if_neg hlast, BitVec.toNat_ofNat]
    omega

theorem step_decrypting {c : Cipher} {d : Word} {r : Nat} (hrst : s.ports.rst = false) (hp : s.phase = .decr) (hr : r < 11)
    (hrnd : s.rnd.toNat = 10 - r) (hc : s.cipher = c) (hk : c.keyValid = true) (hS : s.S = decState c.RK d r) :
    ∃ t, step s = .next t ∧ t.Serving c (.dec d) := by
  subst hc
  refine ⟨_, step_of_decr hrst hp (10 - r) (by omega) hrnd, ?_⟩
  by_cases hlast : 10 - r = 0
  · obtain rfl : r = 10 := by omega
    refine .answering rfl rfl rfl ?_
    simp only [if_true, commandExec, if_pos hk, decryptBlock_eq_decState, hS, ark]
    rfl
  · refine .decrypting (r := r + 1) (if_neg hlast) (by omega) ?_ rfl hk ?_
    · simp only [BitVec.toNat_ofNat]
      omega
    · simp only [if_neg hlast, decState_succ _ d (show r < 10 by omega), hS]
      rfl

/-- Until its response is presented, a step without reset goes on serving the command. -/
theorem step_serving {c : Cipher} {i : Instr} (h : s.Serving c i) (hp : s.phase ≠ .resp) (hr : s.ports.rst = false) :
    ∃ t, step s = .next t ∧ t.Serving c i := by
  cases h with
  | expanding hk hn hrnd hS hRK => exact step_expanding hr hk hn hrnd hS hRK
  | encrypting he hlt hrnd hc hk hS => exact step_encrypting hr he hlt hrnd hc hk hS
  | decrypting hd hlt hrnd hc hk hS => exact step_decrypting hr hd hlt hrnd hc hk hS
  | answering hresp => exact absurd hresp hp

/-! ### The commands without a response yet -/

/-- The commands that have been accepted and have no response yet, `c` being what the command-level machine holds before them (rules
R47, R123): none in IDLE, else the one being served. -/
inductive State.Pending (s : State) (c : Cipher) : List Instr → Prop where
  | none (hp : s.phase = .idle) (hc : s.cipher = c) : s.Pending c []
  | one {i : Instr} (h : s.Serving c i) : s.Pending c [i]

theorem commandRun_append (c : Cipher) (is js : List Instr) :
    commandRun c (is ++ js) =
      ((commandRun (commandRun c is).1 js).1, (commandRun c is).2 ++ (commandRun (commandRun c is).1 js).2) := by
  induction is generalizing c with
  | nil => rfl
  | cons i is ih => simp only [List.cons_append, commandRun, ih]

theorem length_commandRun (c : Cipher) (is : List Instr) : (commandRun c is).2.length = is.length := by
  induction is generalizing c with
  | nil => rfl
  | cons i is ih => simp only [commandRun, List.length_cons, ih]

/-- A step accepts a command behind the pending ones, or answers the pending one as the command-level machine does. -/
theorem step_pending {c : Cipher} {is : List Instr} (hs : s.Pending c is) (hr : s.ports.rst = false) (h : step s = .next t) :
    ∃ done js, is ++ s.accepted.toList = done ++ js ∧ s.taken.toList = (commandRun c done).2 ∧
      t.Pending (commandRun c done).1 js := by
  cases hs with
  | none hp hc =>
    subst hc
    have htaken : s.taken = .none := taken_of_ne_resp (by simp [hp])
    obtain ⟨hrst, -⟩ | ⟨-, -, i, hi, rfl⟩ | ⟨-, -, hi, rfl⟩ | ⟨-, hne, -⟩ := step_cases h
    · simp [hr] at hrst
    · exact ⟨[], [i], by rw [accepted_of_idle hp, hi]; rfl, by rw [htaken]; rfl, .one (accept_serving i s)⟩
    · exact ⟨[], [], by rw [accepted_of_idle hp, hi]; rfl, by rw [htaken]; rfl, .none hp rfl⟩
    · exact absurd hp hne
  | @one i hi =>
    have haccepted : s.accepted = .none := accepted_of_busy (phase_ne_idle_of_serving hi)
    by_cases hp : s.phase = .resp
    · obtain ⟨-, hc, hresp⟩ := answer_of_serving hi hp
      cases hready : s.ports.rspReady with
      | true =>
        obtain rfl := Host.Outcome.next.inj ((step_of_resp_ready hr hp hready).symm.trans h)
        refine ⟨[i], [], by rw [haccepted]; rfl, ?_, .none rfl hc⟩
        rw [taken_of_resp_ready hr hp hready, ← response_of_resp hp, hresp]
        rfl
      | false =>
        obtain rfl := Host.Outcome.next.inj ((step_of_resp_wait hr hp hready).symm.trans h)
        exact ⟨[], [i], by rw [haccepted]; rfl, by rw [taken_of_not_ready hready]; rfl, .one (afterEdge_serving hi)⟩
    · obtain ⟨u, hu, hserving⟩ := step_serving hi hp hr
      obtain rfl := Host.Outcome.next.inj (hu.symm.trans h)
      exact ⟨[], [i], by rw [haccepted]; rfl, by rw [taken_of_ne_resp hp]; rfl, .one hserving⟩

/-- Along a run without reset, the responses taken are the command-level machine's for the first of the commands pending before and
accepted since, and the others are pending. -/
theorem run_pending {c : Cipher} {is : List Instr} {n : Nat} (hs : s.Pending c is) (hr : s.ResetLow n)
    (h : Sys2Proof.core.run n s = .next t) :
    ∃ done js, is ++ acceptedIn n s = done ++ js ∧ takenIn n s = (commandRun c done).2 ∧
      t.Pending (commandRun c done).1 js := by
  induction n generalizing s c is with
  | zero =>
    cases h
    exact ⟨[], is, List.append_nil is, rfl, hs⟩
  | succ n ih =>
    obtain ⟨u, hu, hrun⟩ := run_succ_cases h
    obtain ⟨done₁, js₁, hacc₁, htaken₁, hpending₁⟩ := step_pending hs (hr 0 (by omega)) hu
    obtain ⟨done₂, js₂, hacc₂, htaken₂, hpending₂⟩ :=
      ih hpending₁ (resetLow_of_run (run_one hu) (Nat.add_comm n 1 ▸ hr)) hrun
    refine ⟨done₁ ++ done₂, js₂, ?_, ?_, ?_⟩
    · rw [acceptedIn_succ hu, ← List.append_assoc, hacc₁, List.append_assoc, hacc₂, List.append_assoc]
    · rw [takenIn_succ hu, htaken₁, htaken₂, commandRun_append]
    · rwa [commandRun_append]

/-- Settles O29: by `run_pending` from IDLE, where nothing is pending; at most one command is, and none in IDLE. -/
theorem responsesFollowCommandsInOrder : Obligations.ResponsesFollowCommandsInOrder := by
  intro s t n hp hr h
  obtain ⟨done, js, hacc, htaken, hpending⟩ := run_pending (.none hp rfl) hr h
  rw [List.nil_append] at hacc
  have hlen : (takenIn n s).length = done.length := by rw [htaken, length_commandRun]
  refine ⟨?_, ?_, fun hidle => ?_⟩
  · rw [hlen, hacc, commandRun_append, htaken, ← length_commandRun s.cipher done, List.take_left]
  · rw [hlen, hacc, List.length_append]
    cases hpending with
    | none => exact .inl rfl
    | one => exact .inr rfl
  · cases hpending with
    | none _ hc =>
      rw [hacc, List.append_nil]
      exact ⟨htaken, hc⟩
    | one hi => exact absurd hidle (phase_ne_idle_of_serving hi)

/-! ### From the acceptance of a command to its taken response -/

/-- Where one command has been accepted and its response is presented, that is the command-level machine's response, and none was
taken before. -/
theorem answer_of_run {i : Instr} {n : Nat} (hp : s.phase = .idle) (hr : s.ResetLow n) (h : Sys2Proof.core.run n s = .next t)
    (hacc : acceptedIn n s = [i]) (ht : t.phase = .resp) :
    takenIn n s = [] ∧ t.rnd = 0#4 ∧ t.cipher = (commandExec s.cipher i).1 ∧ t.response = (commandExec s.cipher i).2 := by
  obtain ⟨done, js, hdone, htaken, hpending⟩ := run_pending (.none hp rfl) hr h
  rw [List.nil_append, hacc] at hdone
  cases hpending with
  | none hidle => simp [ht] at hidle
  | one hj =>
    obtain ⟨rfl, hij⟩ := List.append_inj' (show [] ++ [i] = _ from hdone) rfl
    obtain rfl := List.singleton_inj.mp hij
    exact ⟨htaken, answer_of_serving hj ht⟩

/-- From the acceptance of a command to its response, and `h` edges on at which the host waits. -/
theorem run_command_resp {i : Instr} {h : Nat} (hp : s.phase = .idle) (hc : s.presented = some i)
    (hr : s.ResetLow (busySteps s.cipher i + 1 + h)) (hw : s.HostWaits (busySteps s.cipher i + 1) h) :
    ∃ t : State, Sys2Proof.core.run (busySteps s.cipher i + 1 + h) s = .next t ∧ t.phase = .resp ∧
      acceptedIn (busySteps s.cipher i + 1 + h) s = [i] := by
  have hresponds := respondsAfter_busySteps hp hc fun k hk => hr k (by omega)
  obtain ⟨v, hv, hvp⟩ := hresponds.1
  obtain ⟨hwait, -, hacc⟩ := run_resp_wait hvp (resetLow_of_run hv hr) (hostWaits_of_run hv hw)
  refine ⟨_, (run_add hv).trans hwait, hvp, ?_⟩
  rw [acceptedIn_add hv, acceptedIn_of_respondsAfter hp hc hresponds, hacc]
  rfl

/-- Settles O28: the way to the response by `run_command_resp`, what it is by `answer_of_run`, and the take step is row 11. -/
theorem stepMachineRefinesCommandLevel : Obligations.StepMachineRefinesCommandLevel := by
  intro s i h hp hc hr hw hready
  rw [show busySteps s.cipher i + h + 2 = busySteps s.cipher i + 1 + h + 1 by omega] at hr ⊢
  rw [Nat.add_right_comm] at hready ⊢
  obtain ⟨t, hrun, ht, hacc⟩ := run_command_resp hp hc (fun k hk => hr k (by omega)) hw
  obtain ⟨htaken, hrnd, hcipher, hresp⟩ := answer_of_run hp (fun k hk => hr k (by omega)) hrun hacc ht
  have hrst : t.ports.rst = false := rst_of_run hrun hr
  have htready : t.ports.rspReady = true := by rwa [State.ports, run_portsAt hrun]
  have hlast : acceptedIn 1 t = [] := by
    rw [acceptedIn_succ (step_of_resp_ready hrst ht htready), accepted_of_busy (by simp [ht])]
    rfl
  refine ⟨t, _, hrun, step_of_resp_ready hrst ht htready, ?_, htaken, ?_, hcipher, rfl, hrnd, rfl, rfl⟩
  · rw [acceptedIn_add hrun, hacc, hlast, List.append_nil]
  · rw [taken_of_resp_ready hrst ht htready, ← response_of_resp ht, hresp]

/-- Only `LDKEY` changes the schedule and `key_valid` at command level (rule R125). -/
theorem commandExec_cipher {i : Instr} (hi : ∀ k, i ≠ .ldkey k) (c : Cipher) : (commandExec c i).1 = c := by
  cases i with
  | rsvd d => rfl
  | ldkey k => exact absurd rfl (hi k)
  | enc b => rfl
  | dec d => rfl

/-- A state with the six items of another differs from it in the inputs of the coming edges only. -/
theorem eq_of_sameEngine (h : t.SameEngine s) : t = { s with pins := t.pins, edges := t.edges } := by
  obtain ⟨hRK, hS, hkey, hphase, hrnd, hstat⟩ := h
  rw [← hRK, ← hS, ← hkey, ← hphase, ← hrnd, ← hstat]

/-- Settles O27: the schedule and `key_valid` by O28 and `commandExec_cipher`; the other items are those of IDLE before (invariant (a))
and after. -/
theorem blockCommandsLeaveNoTrace : Obligations.BlockCommandsLeaveNoTrace := by
  intro s i h hs hp hc hi hr hw hready
  obtain ⟨-, hS, hrnd, hstat⟩ := (inv_iff_of_idle hp).mp hs
  obtain ⟨t, u, hrun, hstep, -, -, -, hcipher, huS, hurnd, hustat, hup⟩ :=
    stepMachineRefinesCommandLevel s i h hp hc hr hw hready
  have hrun' := run_snoc hrun hstep
  obtain ⟨hRK, hkey⟩ := Cipher.mk.inj (hcipher.trans (commandExec_cipher hi s.cipher))
  have hsame : u.SameEngine s :=
    ⟨hRK, huS.trans hS.symm, hkey, hup.trans hp.symm, hurnd.trans hrnd.symm, hustat.trans hstat.symm⟩
  obtain ⟨hpins, hedges⟩ := run_inputs hrun'
  rw [hrun', eq_of_sameEngine hsame, hpins, hedges]

/-! ### From a busy phase to the response (rule R182) -/

/-- How many micro-steps of a busy phase are left before the response. -/
def State.microStepsLeft (s : State) : Nat :=
  match s.phase with
  | .kexp => 11 - s.rnd.toNat
  | .encr => 11 - s.rnd.toNat
  | .decr => s.rnd.toNat + 1
  | .idle => 0
  | .resp => 0

theorem microStepsLeft_of_kexp (hp : s.phase = .kexp) : s.microStepsLeft = 11 - s.rnd.toNat := by rw [State.microStepsLeft, hp]

theorem microStepsLeft_of_encr (hp : s.phase = .encr) : s.microStepsLeft = 11 - s.rnd.toNat := by rw [State.microStepsLeft, hp]

theorem microStepsLeft_of_decr (hp : s.phase = .decr) : s.microStepsLeft = s.rnd.toNat + 1 := by rw [State.microStepsLeft, hp]

theorem microStepsLeft_of_resp (hp : s.phase = .resp) : s.microStepsLeft = 0 := by rw [State.microStepsLeft, hp]

/-- A micro-step leaves one fewer, and never ends in IDLE. -/
theorem step_microStepsLeft {n : Nat} (hs : s.Inv) (hn : s.microStepsLeft = n + 1) (hr : s.ports.rst = false) :
    ∃ t, step s = .next t ∧ t.phase ≠ .idle ∧ t.microStepsLeft = n := by
  cases hp : s.phase with
  | idle => simp [State.microStepsLeft, hp] at hn
  | resp => simp [State.microStepsLeft, hp] at hn
  | kexp =>
    obtain ⟨-, hpos, hle, -⟩ := (inv_iff_of_kexp hp).mp hs
    rw [microStepsLeft_of_kexp hp] at hn
    refine ⟨_, step_of_kexp hr hp (9 - n) (by omega) (by omega), ?_⟩
    cases n with
    | zero => exact ⟨by simp, microStepsLeft_of_resp rfl⟩
    | succ n =>
      have hlast : ¬ (9 - (n + 1) + 1 = 10) := by omega
      refine ⟨ne_of_eq_of_ne (if_neg hlast) (by decide), (microStepsLeft_of_kexp (if_neg hlast)).trans ?_⟩
      simp only [if_neg hlast, BitVec.toNat_ofNat]
      omega
  | encr =>
    obtain ⟨-, -, hpos, hle⟩ := (inv_iff_of_encr hp).mp hs
    rw [microStepsLeft_of_encr hp] at hn
    refine ⟨_, step_of_encr hr hp (10 - n) (by omega) (by omega), ?_⟩
    cases n with
    | zero => exact ⟨by simp, microStepsLeft_of_resp rfl⟩
    | succ n =>
      have hlast : ¬ (10 - (n + 1) = 10) := by omega
      refine ⟨ne_of_eq_of_ne (if_neg hlast) (by decide), (microStepsLeft_of_encr (if_neg hlast)).trans ?_⟩
      simp only [if_neg hlast, BitVec.toNat_ofNat]
      omega
  | decr =>
    obtain ⟨-, -, hle⟩ := (inv_iff_of_decr hp).mp hs
    rw [microStepsLeft_of_decr hp] at hn
    refine ⟨_, step_of_decr hr hp n (by omega) (by omega), ?_⟩
    cases n with
    | zero => exact ⟨by simp, microStepsLeft_of_resp rfl⟩
    | succ n =>
      refine ⟨by simp, (microStepsLeft_of_decr rfl).trans ?_⟩
      simp only [BitVec.toNat_ofNat]
      omega

/-- Outside IDLE with no micro-step left, the response is presented. -/
theorem resp_of_microStepsLeft_eq_zero (hs : s.Inv) (hp : s.phase ≠ .idle) (hn : s.microStepsLeft = 0) : s.phase = .resp := by
  cases hphase : s.phase with
  | idle => exact absurd hphase hp
  | resp => rfl
  | kexp =>
    obtain ⟨-, -, hle, -⟩ := (inv_iff_of_kexp hphase).mp hs
    rw [microStepsLeft_of_kexp hphase] at hn
    omega
  | encr =>
    obtain ⟨-, -, -, hle⟩ := (inv_iff_of_encr hphase).mp hs
    rw [microStepsLeft_of_encr hphase] at hn
    omega
  | decr => simp [microStepsLeft_of_decr hphase] at hn

theorem run_microStepsLeft {n : Nat} (hs : s.Inv) (hp : s.phase ≠ .idle) (hn : s.microStepsLeft = n) (hr : s.ResetLow n) :
    ∃ t : State, Sys2Proof.core.run n s = .next t ∧ t.phase = .resp := by
  induction n generalizing s with
  | zero => exact ⟨s, rfl, resp_of_microStepsLeft_eq_zero hs hp hn⟩
  | succ n ih =>
    obtain ⟨u, hu, hup, hun⟩ := step_microStepsLeft hs hn (hr 0 (by omega))
    rw [run_succ_of_step hu]
    exact ih (step_inv hs hu) hup hun (resetLow_of_run (run_one hu) (Nat.add_comm n 1 ▸ hr))

theorem microStepsLeft_le (hs : s.Inv) : s.microStepsLeft ≤ 11 := by
  cases hp : s.phase with
  | idle => simp [State.microStepsLeft, hp]
  | resp => simp [State.microStepsLeft, hp]
  | kexp => exact (microStepsLeft_of_kexp hp).trans_le (Nat.sub_le _ _)
  | encr => exact (microStepsLeft_of_encr hp).trans_le (Nat.sub_le _ _)
  | decr =>
    obtain ⟨-, -, hle⟩ := (inv_iff_of_decr hp).mp hs
    exact (microStepsLeft_of_decr hp).trans_le (Nat.succ_le_succ hle)

/-- Settles O30: after as many steps as micro-steps are left, at most 11. -/
theorem busyPhasesReachTheResponse : Obligations.BusyPhasesReachTheResponse := by
  intro s hs hbusy hr
  have hp : s.phase ≠ .idle := by obtain hp | hp | hp := hbusy <;> simp [hp]
  have hle := microStepsLeft_le hs
  exact ⟨_, hle, run_microStepsLeft hs hp rfl fun k hk => hr k (by omega)⟩

/-! ### Reset (rule R172) -/

/-- From IDLE, no response is taken while no command is accepted. -/
theorem takenIn_eq_nil_of_idle {n : Nat} (hs : s.Inv) (hp : s.phase = .idle) (hr : s.ResetLow n) (hacc : acceptedIn n s = []) :
    takenIn n s = [] := by
  obtain ⟨t, hrun⟩ := safe_of_inv hs n
  obtain ⟨done, js, hdone, htaken, -⟩ := run_pending (.none hp rfl) hr hrun
  rw [List.nil_append, hacc] at hdone
  obtain ⟨rfl, -⟩ := List.nil_eq_append_iff.mp hdone
  exact htaken

/-- Settles O31: with `rst = 1` nothing is presented and no response is taken, and after the reset step `takenIn_eq_nil_of_idle`. -/
theorem resetAbandonsTheCommand : Obligations.ResetAbandonsTheCommand := by
  intro s hr
  have hpresented : s.presented = none := if_neg (by simp [hr])
  have hinv : (resetStep s).afterEdge.Inv := afterEdge_inv (inv_reset s.pins s.edges)
  have hidle : (resetStep s).afterEdge.phase = .idle := rfl
  obtain ⟨-, hvalid, -⟩ := outputs_of_idle hidle
  refine ⟨by rw [State.accepted, hpresented, ite_self], if_neg (by simp [hr]), _, step_of_reset hr, hidle, rfl, hvalid, ?_⟩
  exact fun _ => takenIn_eq_nil_of_idle hinv hidle

end Sys2Proof.Machine

/-! PROOFS. The schedule as a function of the key: its closed form (rule R86), and that different keys give different round keys
(rule R87). -/

namespace Sys2Proof.Machine

/-! ### The closed form -/

/-- Rule R80 on an exclusive or: the constant stays with one of the two. -/
theorem kstep_xor (a b : Word) (i : Nat) : kstep (a ^^^ b) i = rotl128 a 13 ^^^ kstep b i := by
  rw [kstep, kstep, rotl128_xor a b 13 (by decide), BitVec.xor_assoc]

/-- A round key is the key rotated, XOR the round key of the zero key (rule R86). -/
theorem roundKey_eq (k : Word) (i : Nat) : roundKey k i = rotl128 k ((13 * i) % 128) ^^^ roundKey 0#128 i := by
  induction i with
  | zero => simp [roundKey]
  | succ i ih =>
    have hrot : ((13 * i) % 128 + 13) % 128 = (13 * (i + 1)) % 128 := by omega
    rw [roundKey_succ, ih, kstep_xor, rotl128_rotl128 k _ 13 (by omega) (by decide), hrot, roundKey_succ]

/-- The part of the i-th round key that round index `j + 1` gives: it has been rotated `i - (j + 1)` times since. -/
def roundConstant (i j : Nat) : Word := rotl128 (BitVec.ofNat 128 (j + 1) <<< 120) ((13 * (i - (j + 1))) % 128)

theorem roundConstant_self (i : Nat) : roundConstant (i + 1) i = BitVec.ofNat 128 (i + 1) <<< 120 := by
  simp [roundConstant]

theorem rotl128_roundConstant {i j : Nat} (hj : j < i) : rotl128 (roundConstant i j) 13 = roundConstant (i + 1) j := by
  have hrot : ((13 * (i - (j + 1))) % 128 + 13) % 128 = (13 * (i + 1 - (j + 1))) % 128 := by omega
  rw [roundConstant, rotl128_rotl128 _ _ 13 (by omega) (by decide), hrot, roundConstant]

/-- One round later every constant is rotated once more, and so is their XOR. -/
theorem foldl_roundConstant_succ (i : Nat) :
    (List.range i).foldl (fun x j => x ^^^ roundConstant (i + 1) j) 0#128 =
      rotl128 ((List.range i).foldl (fun x j => x ^^^ roundConstant i j) 0#128) 13 := by
  calc (List.range i).foldl (fun x j => x ^^^ roundConstant (i + 1) j) 0#128
      = (List.range i).foldl (fun x j => x ^^^ rotl128 (roundConstant i j) 13) (rotl128 0#128 13) := by
        rw [rotl128_of_zero]
        exact List.foldl_ext _ _ _ fun x j hj => by rw [rotl128_roundConstant (List.mem_range.mp hj)]
    _ = rotl128 ((List.range i).foldl (fun x j => x ^^^ roundConstant i j) 0#128) 13 :=
        List.foldl_hom (fun x => rotl128 x 13) fun x j => (rotl128_xor x (roundConstant i j) 13 (by decide)).symm

/-- The round keys of the zero key (rule R86). -/
theorem roundKey_of_zero (i : Nat) : roundKey 0#128 i = (List.range i).foldl (fun x j => x ^^^ roundConstant i j) 0#128 := by
  induction i with
  | zero => rfl
  | succ i ih =>
    rw [List.range_succ, List.foldl_concat, foldl_roundConstant_succ, ← ih, roundConstant_self, roundKey_succ, kstep]

theorem xor_xor_eq_of_constant (a b e : Word) : a ^^^ b ^^^ e = a ^^^ e ^^^ (b ^^^ e) ^^^ e := by
  rw [BitVec.xor_assoc _ (b ^^^ e) e, BitVec.xor_assoc b e e, BitVec.xor_self, BitVec.xor_zero, BitVec.xor_assoc a b e,
    BitVec.xor_comm b e, BitVec.xor_assoc a e b]

/-- Settles O35: the closed form by `roundKey_eq`, the constants by `roundKey_of_zero`; of three equal constants two cancel. -/
theorem scheduleClosedForm : Obligations.ScheduleClosedForm := by
  refine ⟨fun k i hi => ?_, fun i hi => ?_, fun a b i hi => ?_⟩
  · rw [getElem_expand k hi, getElem_expand _ hi, roundKey_eq]
  · rw [getElem_expand _ hi, roundKey_of_zero]
    rfl
  · rw [getElem_expand _ hi, getElem_expand _ hi, getElem_expand _ hi, getElem_expand _ hi, roundKey_eq (a ^^^ b), roundKey_eq a,
      roundKey_eq b, rotl128_xor _ _ _ (Nat.mod_lt _ (by decide)), xor_xor_eq_of_constant]

/-! ### Bijections -/

/-- A schedule step is undone by XOR with its constant and the rotation by the rest of the 128 bits. -/
def kstepInverse (next : Word) (i : Nat) : Word := rotl128 (next ^^^ (BitVec.ofNat 128 i <<< 120)) 115

theorem kstepInverse_kstep (prev : Word) (i : Nat) : kstepInverse (kstep prev i) i = prev := by
  rw [kstepInverse, kstep, BitVec.xor_assoc, BitVec.xor_self, BitVec.xor_zero, rotl128_rotl128 prev 13 115 (by decide) (by decide),
    rotl128_zero]

theorem kstep_kstepInverse (next : Word) (i : Nat) : kstep (kstepInverse next i) i = next := by
  rw [kstepInverse, kstep, rotl128_rotl128 _ 115 13 (by decide) (by decide), rotl128_zero, BitVec.xor_assoc, BitVec.xor_self,
    BitVec.xor_zero]

theorem kstep_bijective (i : Nat) : Function.Bijective fun prev => kstep prev i :=
  Function.bijective_iff_has_inverse.mpr
    ⟨fun next => kstepInverse next i, fun prev => kstepInverse_kstep prev i, fun next => kstep_kstepInverse next i⟩

/-- Each round key determines the key (rule R87). -/
theorem roundKey_injective (i : Nat) : Function.Injective fun k => roundKey k i := by
  induction i with
  | zero => exact fun _ _ h => h
  | succ i ih => exact fun _ _ h => ih ((kstep_bijective (i + 1)).injective h)

/-- Settles O36 by `kstep_bijective` and `roundKey_injective`. -/
theorem keyStepIsABijection : Obligations.KeyStepIsABijection := by
  refine ⟨fun i _ _ => kstep_bijective i, fun k k' i hi hne => ?_⟩
  rw [getElem_expand k hi, getElem_expand k' hi]
  exact (roundKey_injective i).ne hne

end Sys2Proof.Machine

/-! PROOFS. The host: the block procedures (rule R132), the round trip of a message (rule R141), and hex texts (rule R144). -/

namespace Sys2Proof.Machine

variable {c : Cipher}

/-! ### The block procedures -/

theorem encBlk_of_length_ne {buf : List Byte} (h : buf.length ≠ 16) (c : Cipher) : encBlk buf c = raise .invalidBlockLength c :=
  if_neg (by simpa [blockLengthOk] using h)

theorem decBlk_of_length_ne {buf : List Byte} (h : buf.length ≠ 16) (c : Cipher) : decBlk buf c = raise .invalidBlockLength c :=
  if_neg (by simpa [blockLengthOk] using h)

/-- With no key loaded the response's status tells the host so (rule R152; log entry 8). -/
theorem encBlk_of_no_key (hk : c.keyValid = false) {b : List Byte} (hb : b.length = 16) :
    encBlk b c = { result := .error .noCipher, cipher := c, issued := [.enc (be128 b)] } := by
  simp [encBlk, blockLengthOk, hb, issueBlock, commandExec, hk]

theorem decBlk_of_no_key (hk : c.keyValid = false) {b : List Byte} (hb : b.length = 16) :
    decBlk b c = { result := .error .noCipher, cipher := c, issued := [.dec (be128 b)] } := by
  simp [decBlk, blockLengthOk, hb, issueBlock, commandExec, hk]

/-- Settles O50: another length raises the error, and with 16 bytes the procedures are said with a key and without one. -/
theorem blockProceduresCheckTheLength : Obligations.BlockProceduresCheckTheLength := by
  refine fun buf c => ⟨fun h => ?_, fun h => ?_⟩
  · rw [encBlk_of_length_ne h, decBlk_of_length_ne h]
    exact ⟨rfl, rfl, rfl, rfl, rfl, rfl⟩
  · cases hk : c.keyValid with
    | true =>
      rw [encBlk_of_keyValid hk h, decBlk_of_keyValid hk h]
      exact ⟨rfl, rfl, rfl, rfl, fun _ => ⟨rfl, rfl⟩, nofun⟩
    | false =>
      rw [encBlk_of_no_key hk h, decBlk_of_no_key hk h]
      exact ⟨rfl, rfl, rfl, rfl, nofun, fun _ => ⟨rfl, rfl⟩⟩

/-! ### The round trip of a message -/

/-- The first block of a buffer that begins with one. -/
theorem blocksOf_append {b : List Byte} (hb : b.length = 16) (m : List Byte) : blocksOf (b ++ m) = b :: blocksOf m := by
  have hcount : (b ++ m).length / 16 = m.length / 16 + 1 := by rw [List.length_append, hb]; omega
  have htail (t : Nat) : ((b ++ m).drop (16 * (t + 1))).take 16 = (m.drop (16 * t)).take 16 := by
    rw [Nat.mul_succ, Nat.add_comm, ← List.drop_drop, List.drop_left' hb]
  rw [blocksOf, hcount, List.range_succ_eq_map, List.map_cons, List.map_map, Nat.mul_zero, List.drop_zero, List.take_left' hb]
  simp only [Function.comp_def, Nat.succ_eq_add_one, htail, blocksOf]

/-- A buffer put together from blocks is cut into those blocks (rules R134, R136). -/
theorem blocksOf_flatMap {f : List Byte → List Byte} (hf : ∀ b, (f b).length = 16) (bs : List (List Byte)) :
    blocksOf (bs.flatMap f) = bs.map f := by
  induction bs with
  | nil => simp [blocksOf]
  | cons b bs ih => rw [List.flatMap_cons, blocksOf_append (hf b), ih, List.map_cons]

/-- What a message is encrypted to, block by block (rule R134). -/
def encryptedBlocks (rk : Schedule) (m : List Byte) : List Byte :=
  (blocksOf m).flatMap fun b => bytes16 (encryptBlock rk (be128 b))

theorem length_encryptedBlocks (rk : Schedule) {m : List Byte} (h : m.length % 16 = 0) :
    (encryptedBlocks rk m).length = m.length := by
  have hcount : (blocksOf m).length * 16 = m.length := by rw [blocksOf, List.length_map, List.length_range]; omega
  simp [encryptedBlocks, List.length_flatMap, hcount]

/-- Decryption undoes encryption block by block, for every buffer of whole blocks. -/
theorem decryptedBlocks_encryptedBlocks (rk : Schedule) {m : List Byte} (h : m.length % 16 = 0) :
    decryptedBlocks rk (encryptedBlocks rk m) = m := by
  have hblock (b : List Byte) (hb : b ∈ blocksOf m) :
      bytes16 (decryptBlock rk (be128 (bytes16 (encryptBlock rk (be128 b))))) = b := by
    rw [be128_bytes16, decryptBlock_encryptBlock, bytes16_be128 (length_of_mem_blocksOf hb)]
  calc decryptedBlocks rk (encryptedBlocks rk m)
      = (blocksOf m).flatMap fun b => bytes16 (decryptBlock rk (be128 (bytes16 (encryptBlock rk (be128 b))))) := by
        rw [decryptedBlocks, encryptedBlocks, blocksOf_flatMap fun _ => length_bytes16 _, List.flatMap_map]
    _ = (blocksOf m).flatMap id := List.flatMap_congr hblock
    _ = m := by rw [List.flatMap_id, flatten_blocksOf h]

/-- Removing the padding of a padded message gives the message (rules R133, R136). -/
theorem stripPad_pad (m : List Byte) : stripPad (pad m) = .ok m := by
  have hpos := padLen_pos m
  have hle := padLen_le m
  have hnat : (BitVec.ofNat 8 (padLen m)).toNat = padLen m := by rw [BitVec.toNat_ofNat]; omega
  have hlast : (pad m).getLast? = some (BitVec.ofNat 8 (padLen m)) := by
    simp [pad, List.getLast?_append, List.getLast?_replicate, show padLen m ≠ 0 by omega]
  rw [stripPad_ok hlast (by omega) (by omega), hnat, length_pad, Nat.add_sub_cancel, pad, List.take_left]

/-- Settles O55: the ciphertext decrypts to the padded message, whose padding is removed. -/
theorem messageRoundTrip : Obligations.MessageRoundTrip := by
  intro m c hk
  have hmod := length_pad_mod m
  have hlen := length_encryptedBlocks c.RK hmod
  have hne : (pad m).length ≠ 0 := by have := padLen_pos m; rw [length_pad]; omega
  refine ⟨encryptedBlocks c.RK (pad m), by rw [encMsg_of_keyValid hk, encryptedBlocks], hlen, ?_⟩
  rw [decMsg_of_keyValid hk (by rw [hlen, hmod]) (by rw [hlen]; exact hne), decryptedBlocks_encryptedBlocks c.RK hmod, stripPad_pad]

/-! ### Hex texts -/

theorem hexValue_hexDigit : ∀ v : Nibble, hexValue (hexDigit v) = some v := by decide

theorem hexDigit_mem : ∀ v : Nibble, hexDigit v ∈ hexDigits := by decide

/-- A byte is its two nibbles put together (rule R9). -/
theorem nibbles_append (b : Byte) : (b.extractLsb' 4 4 ++ b.extractLsb' 0 4 : BitVec (4 + 4)) = b := by
  revert b
  decide

theorem parseHex_bytesToHex (bs : List Byte) : parseHex (bytesToHex bs) = some bs := by
  induction bs with
  | nil => rfl
  | cons b bs ih => simp only [bytesToHex, parseHex, hexValue_hexDigit, ih, nibbles_append]

theorem hexToBytes_bytesToHex (bs : List Byte) : hexToBytes (bytesToHex bs) = some bs := by
  rw [hexToBytes, parseHex_bytesToHex]

theorem length_bytesToHex (bs : List Byte) : (bytesToHex bs).length = 2 * bs.length := by
  induction bs with
  | nil => rfl
  | cons b bs ih =>
    rw [bytesToHex, List.length_cons, List.length_cons, ih, List.length_cons]
    omega

theorem mem_hexDigits_of_mem_bytesToHex {bs : List Byte} {ch : Char} (h : ch ∈ bytesToHex bs) : ch ∈ hexDigits := by
  induction bs with
  | nil => cases h
  | cons b bs ih =>
    rw [bytesToHex, List.mem_cons, List.mem_cons] at h
    obtain rfl | rfl | h := h
    · exact hexDigit_mem _
    · exact hexDigit_mem _
    · exact ih h

/-- Settles O56: the digits are read back nibble by nibble; the example is evaluated. -/
theorem hexTextRoundTrip : Obligations.HexTextRoundTrip :=
  ⟨fun bs => ⟨hexToBytes_bytesToHex bs, length_bytesToHex bs, fun _ => mem_hexDigits_of_mem_bytesToHex⟩, by decide⟩

end Sys2Proof.Machine
